-- ==== Sys2Proof/Word.lean ====
section
/-! DEFINITION. The two word types of the engine: the byte and the 16-bit field (spec 20_memory.md R30). -/

namespace Sys2Proof

/-- A byte, the unit of storage (R28, R30). -/
abbrev Byte := BitVec 8

/-- A 16-bit field: a big-endian byte pair or a checksum (R28, R45, R70). -/
abbrev Half := BitVec 16

end Sys2Proof
end

