-- ==== Sys2Proof/Config.lean ====
section
/-! DEFINITION. What an implementation fixes: the capacity of the reassembly buffer (spec 00_scope.md R6). -/

namespace Sys2Proof

/-- The default of the parameter `CAP`, the capacity of the buffer in bytes (R6, D1). The parameter itself is the field
`cap` of State, so that every statement can speak of an arbitrary `CAP`.
DESIGN CHOICE (log 1), safe: a statement over all states is a statement over all capacities. -/
def Config.defaultCap : Nat := 100

/-- The least legal `CAP`: a frame with an empty payload is 7 bytes (R6). -/
def Config.minCap : Nat := 7

/-- Frame overhead: start, command, status, length, two checksum bytes, end (R7). -/
def Config.overhead : Nat := 7

end Sys2Proof
end

