-- ==== Sys2Proof/Syntax.lean ====
section
/-! DEFINITION. The instructions: one constructor per row of spec/opcode_table.json, and the three encodings the table knows
(30_encoding.md section 8). -/

namespace Sys2Proof

/-- The operands of a FRAME row: everything of a response frame that its header word does not fix (R37). The length byte
`N` is the length of `payload`; it is encodable when that is at most 255 (R42). -/
structure Frame where
  payload   : List Byte
  checksum  : Half
  endMarker : Byte
deriving DecidableEq, Repr

/-- One encoded instruction, in one of the three formats of the opcode table. -/
inductive Code where
  /-- Format OP: the 3-bit operation code and the operand bytes (R49, R54). -/
  | op (opCode : BitVec 3) (operand : List Byte)
  /-- Format FRAME: a completed response frame as it stands in the buffer (R37). -/
  | frame (bytes : List Byte)
  /-- Format REQUEST: a whole request frame (R53). -/
  | request (bytes : List Byte)
deriving DecidableEq, Repr

/-- The instructions. -/
inductive Instr where
  /-- `RESET` (R55). -/
  | reset
  /-- `APPEND chunk` (R56). -/
  | append (chunk : List Byte)
  /-- `DECODE` (R76). -/
  | decode
  /-- `PACK_SUMMARY`: a frame with command `0x03` (R104). -/
  | packSummary (f : Frame)
  /-- `CELL_VOLTAGES`: a frame with command `0x04` (R108). -/
  | cellVoltages (f : Frame)
  /-- `REQ_PACK_SUMMARY`: the request frame for a pack summary (R53). -/
  | reqPackSummary
  /-- `REQ_CELL_VOLTAGES`: the request frame for the cell voltages (R53). -/
  | reqCellVoltages
deriving DecidableEq, Repr

end Sys2Proof
end

