-- ==== Sys2Proof/WellFormed.lean ====
section
/-! DEFINITION. Which instruction terms stand for an encoding: a chunk is not empty (R69), a payload length fits in one byte (R42). -/

namespace Sys2Proof

/-- The payload length is a byte value (R42). -/
def Frame.wf (f : Frame) : Bool := decide (f.payload.length ≤ 255)

/-- The instruction has an encoding. -/
def Instr.wf : Instr → Bool
  | .reset => true
  | .append chunk => !chunk.isEmpty
  | .decode => true
  | .packSummary f => f.wf
  | .cellVoltages f => f.wf
  | .reqPackSummary => true
  | .reqCellVoltages => true

end Sys2Proof
end

