-- ==== Sys2Proof/Decode.lean ====
section
/-! DEFINITION. The decoder, total on any encoding and rejecting by name, the encoder, and the numbering of
spec/opcode_table.json (spec 30_encoding.md). -/

namespace Sys2Proof

/-- Start marker (R7, R39). -/
def startMarker : Byte := 0xDD
/-- Command code of a pack summary (R7, R40). -/
def cmdPack : Byte := 0x03
/-- Command code of a cell-voltage report (R7, R40). -/
def cmdCells : Byte := 0x04
/-- The status value for success (R7, R41). -/
def statusOk : Byte := 0x00

/-- The request frame for a pack summary (R53). -/
def reqPackBytes : List Byte := [0xDD, 0xA5, 0x03, 0x00, 0xFF, 0xFD, 0x77]
/-- The request frame for the cell voltages (R53). -/
def reqCellsBytes : List Byte := [0xDD, 0xA5, 0x04, 0x00, 0xFF, 0xFC, 0x77]

/-- `be16`: the byte at the lower index is the more significant (R28, R45). -/
def be16 (hi lo : Byte) : Half := hi ++ lo
/-- The more significant byte of a 16-bit field (R28). -/
def highByte (h : Half) : Byte := h.extractLsb' 8 8
/-- The less significant byte of a 16-bit field (R28). -/
def lowByte (h : Half) : Byte := h.extractLsb' 0 8

/-- `F[k]` of a frame as a byte sequence (R9). Every use stays inside the sequence when `wholeFrame` holds; the value past
the end is never used then. -/
def byteAt (F : List Byte) (k : Nat) : Byte := F.getD k 0

/-- `N = F[3]`, the declared payload length (R42). -/
def payloadLength (F : List Byte) : Nat := (byteAt F 3).toNat

/-- `|F| = F[3] + 7` (R38): the byte sequences for which `decode_frame` is defined (R76). -/
def wholeFrame (F : List Byte) : Bool := decide (4 ≤ F.length ∧ F.length = payloadLength F + Config.overhead)

/-- The bytes of a frame with command `cmd` (R37). -/
def frameBytes (cmd : Byte) (f : Frame) : List Byte :=
  [startMarker, cmd, statusOk, BitVec.ofNat 8 f.payload.length] ++ f.payload
    ++ [highByte f.checksum, lowByte f.checksum, f.endMarker]

/-- The operands of a whole frame (R37). -/
def frameOperands (F : List Byte) : Frame where
  payload   := (F.drop 4).take (payloadLength F)
  checksum  := be16 (byteAt F (4 + payloadLength F)) (byteAt F (5 + payloadLength F))
  endMarker := byteAt F (6 + payloadLength F)

/-- Why an encoding is no instruction. -/
inductive Rejection where
  /-- `op_code` 3..7 (R52, D27). -/
  | reservedOpCode
  /-- `APPEND` with an empty chunk (R69). -/
  | emptyChunk
  /-- operand bytes behind an operation that has no operand (R49). -/
  | strayOperand
  /-- the byte sequence is not `F[3] + 7` bytes (R38). -/
  | wrongLength
  /-- the frame does not begin with the start marker (R39). -/
  | badStart
  /-- the frame's status byte is not zero (R41). -/
  | badStatus
  /-- the frame's command byte is neither `0x03` nor `0x04` (R40). -/
  | unknownCommand
  /-- the bytes are neither of the two request frames (R53). -/
  | notARequest
deriving DecidableEq, Repr

/-- Format OP (R49, R52). -/
def decodeOp (opCode : BitVec 3) (operand : List Byte) : Except Rejection Instr :=
  if opCode = 0 then (if operand = [] then .ok .reset else .error .strayOperand)
  else if opCode = 1 then (if operand = [] then .error .emptyChunk else .ok (.append operand))
  else if opCode = 2 then (if operand = [] then .ok .decode else .error .strayOperand)
  else .error .reservedOpCode

/-- Format FRAME: the row's mask fixes start marker, command and status (30_encoding.md section 8). -/
def decodeFrameRow (F : List Byte) : Except Rejection Instr :=
  if ¬ wholeFrame F then .error .wrongLength
  else if byteAt F 0 ≠ startMarker then .error .badStart
  else if byteAt F 2 ≠ statusOk then .error .badStatus
  else if byteAt F 1 = cmdPack then .ok (.packSummary (frameOperands F))
  else if byteAt F 1 = cmdCells then .ok (.cellVoltages (frameOperands F))
  else .error .unknownCommand

/-- Format REQUEST: the row's mask fixes all 56 bits (30_encoding.md section 8). -/
def decodeRequest (bytes : List Byte) : Except Rejection Instr :=
  if bytes = reqPackBytes then .ok .reqPackSummary
  else if bytes = reqCellsBytes then .ok .reqCellVoltages
  else .error .notARequest

/-- The decoder. -/
def decode : Code → Except Rejection Instr
  | .op opCode operand => decodeOp opCode operand
  | .frame bytes => decodeFrameRow bytes
  | .request bytes => decodeRequest bytes

/-- The encoder: the encoding of a well-formed instruction. -/
def encode : Instr → Code
  | .reset => .op 0 []
  | .append chunk => .op 1 chunk
  | .decode => .op 2 []
  | .packSummary f => .frame (frameBytes cmdPack f)
  | .cellVoltages f => .frame (frameBytes cmdCells f)
  | .reqPackSummary => .request reqPackBytes
  | .reqCellVoltages => .request reqCellsBytes

/-- The low `n` bytes of `w` as a big-endian byte string: the table reads a header word or a request frame as one big-endian
number (30_encoding.md section 8). -/
def bigEndianBytes (w : Nat) : Nat → List Byte
  | 0 => []
  | n + 1 => BitVec.ofNat 8 (w / 256 ^ n) :: bigEndianBytes w n

/-- The encoding whose table bits are `w`, every further bit 0 (log 9). An OP row is its 3-bit code, and `APPEND` gets the
shortest operand, one zero byte. A FRAME row is the header word, then zeros up to the frame's `N + 7` bytes. A REQUEST row
is seven bytes. -/
def tableCode (nbits w : Nat) : Code :=
  if nbits ≤ 8 then .op (BitVec.ofNat 3 w) (if w % 8 = 1 then [0] else [])
  else if nbits ≤ 32 then .frame (bigEndianBytes w 4 ++ List.replicate (w % 256 + 3) 0)
  else .request (bigEndianBytes w 7)

/-- The instruction the decoder reads from a table row's bits. -/
def decodeTableWord (nbits w : Nat) : Option Instr :=
  match decode (tableCode nbits w) with
  | .ok i => some i
  | .error _ => none

end Sys2Proof
end

