-- ==== Sys2Proof/Machine/State.lean ====
section
/-! DEFINITION. The state of the engine, what an operation hands to the collaborator, the reasons to stop, and the state
after reset (spec 10_state.md, 42_decode.md R81, 30_encoding.md R50 and R51). -/

namespace Sys2Proof.Machine

/-- The reassembly buffer's storage: (frame index, byte) pairs with strictly rising indices (R25). An index that is not
listed holds no value (log 5). -/
abbrev Memory := List Host.Cell

/-- The canonical form: frame indices strictly rising. An unlisted index has no value, so no entry can equal it. -/
def Memory.wf (m : Memory) : Bool := decide (m.Pairwise (fun a b => a.1 < b.1))

/-- The error causes (R51, R109). -/
inductive Cause where
  | malformedStart
  | bmsReportedFault
  | bufferOverflow
  /-- carries the two 16-bit values it reports (R113). -/
  | checksumMismatch (received computed : Half)
  | unknownCommand
  | truncated
  | errorLatched
  | noFrame
deriving DecidableEq, Repr

/-- The production date's sub-fields, extracted as they are (R47, R91). -/
structure ProductionDate where
  raw   : Half
  year  : Nat
  month : Nat
  day   : Nat
deriving DecidableEq, Repr

/-- The fields of a pack summary, integers in the units of R81 and R82. -/
structure PackSummary where
  totalVoltage_cV       : Half
  current_cA            : Int
  remainingCapacity_cAh : Half
  nominalCapacity_cAh   : Half
  cycleCount            : Half
  productionDate        : ProductionDate
  cellCount             : Byte
  balancing             : List Bool
  protectionStatus      : Half
  firmwareVersion_x10   : Byte
  stateOfCharge_pct     : Byte
  chargeFet             : Bool
  dischargeFet          : Bool
  tempSensorCount       : Byte
  temperatures_dC       : List Int
deriving DecidableEq, Repr

/-- `DecodedRecord`, a tagged union of two variants (R81). -/
inductive DecodedRecord where
  | packSummary (p : PackSummary)
  | cellVoltages (millivolts : List Half)
deriving DecidableEq, Repr

/-- The outcome of `APPEND` (R50). -/
inductive AppendOutcome where
  | continuing
  | frameComplete
  | error (c : Cause)
deriving DecidableEq, Repr

/-- The result of `DECODE` (R49). -/
inductive DecodeResult where
  | ok (r : DecodedRecord)
  | err (c : Cause)
deriving DecidableEq, Repr

/-- What an operation hands to the collaborator: nothing (`RESET`, R55), an outcome or a decode result. -/
inductive Result where
  | nothing
  | append (o : AppendOutcome)
  | decode (d : DecodeResult)
deriving DecidableEq, Repr

/-- The state. The first four fields are the spec's (R10). The last three are the model's own (log 1, log 2, log 3). -/
structure State where
  /-- the bytes stored for the current frame (R11). -/
  acc : Memory
  /-- how many bytes are stored, and the index of the next one (R12). -/
  len : Nat
  /-- `expKnown` and `expLen`: the declared payload length, or unknown (R13, log 4). -/
  expectedLength : Option Byte
  /-- the latch: while set every `APPEND` is refused (R14). -/
  errorFlag : Bool
  /-- MODEL: the parameter `CAP` (R6, log 1). -/
  cap : Nat
  /-- MODEL: operations issued and not yet run, oldest first (log 2). -/
  port : List Code
  /-- MODEL: what the last operation returned (R19, log 3). -/
  result : Result
deriving DecidableEq, Repr

/-- Power-on (R21, R125): nothing stored, length unknown, no error, capacity at its default, nothing issued, no result. -/
def State.reset : State where
  acc := []
  len := 0
  expectedLength := none
  errorFlag := false
  cap := Config.defaultCap
  port := []
  result := .nothing

/-- Why the machine stops with a fault. None is an error of the spec (those are results, R109). All are safe: no state that
meets the invariant of R15 raises one. -/
inductive Fault where
  /-- raised by `DECODE` when it reads an index that is not below `CAP`: no such address exists (R25). Safe. -/
  | outsideBuffer
  /-- raised by `DECODE` when it reads an index that holds no value (R11, log 5). Safe. -/
  | unwrittenByte
  /-- raised by `DECODE` when the bytes stored are not one whole frame, for which `decode_frame` is not defined (R76, log 12). Safe. -/
  | notAWholeFrame
deriving DecidableEq, Repr

/-- Why the machine gives no meaning to what it is asked to run. -/
inductive Refusal where
  /-- raised by the dispatch for an instruction that has no meaning yet. Safe. -/
  | notModelled (mnemonic : String)
  /-- raised by the step when what stands on the port is no instruction (R52, U6, U7, log 7). Safe. -/
  | rejected (why : Rejection)
  /-- raised by the step when a response frame stands on the port: it is no operation (R49), it is delivered by `APPEND` (log 9). Safe. -/
  | frameOnPort
  /-- raised by `APPEND []`, which has no meaning (R69, U7). Safe. -/
  | emptyChunk
  /-- raised by the two FRAME instructions for a payload of more than 255 bytes, which has no encoding (R42, log 7). Safe. -/
  | payloadTooLong
deriving DecidableEq, Repr

end Sys2Proof.Machine
end

