-- ==== Sys2Proof/Machine/Ops.lean ====
section
/-! DEFINITION. The named operations over the buffer and the state elements, taking an error and the return from the
latched state (spec 20_memory.md, 10_state.md, 60_exceptions.md). -/

namespace Sys2Proof.Machine

/-- The byte at frame index `k`, if one is stored. -/
def Memory.read : Memory → Nat → Option Byte
  | [], _ => none
  | (a, c) :: m, k => if a = k then some c else Memory.read m k

/-- `MemWrite(k, 1, b)`, keeping the indices in rising order (R26). -/
def Memory.write : Memory → Nat → Byte → Memory
  | [], k, b => [(k, b)]
  | (a, c) :: m, k, b =>
    if k < a then (k, b) :: (a, c) :: m
    else if k = a then (k, b) :: m
    else (a, c) :: Memory.write m k b

/-- `MemRead(k, 1)`: index `k` exists only below `CAP` (R25) and has a value only when one was stored (R11). -/
def State.readByte (s : State) (k : Nat) : Except Fault Byte :=
  if s.cap ≤ k then .error .outsideBuffer
  else match s.acc.read k with
    | some b => .ok b
    | none => .error .unwrittenByte

/-- The bytes at indices `k .. k+n-1`. -/
def State.readBytes (s : State) (k : Nat) : Nat → Except Fault (List Byte)
  | 0 => .ok []
  | n + 1 =>
    match s.readByte k with
    | .error f => .error f
    | .ok b =>
      match State.readBytes s (k + 1) n with
      | .error f => .error f
      | .ok bs => .ok (b :: bs)

/-- `acc[0 .. len)`, the frame operand of `DECODE` (R77). -/
def State.frame (s : State) : Except Fault (List Byte) := s.readBytes 0 s.len

/-- `MemWrite(len, 1, b); len <- len + 1` (R26). -/
def State.storeByte (s : State) (b : Byte) : State :=
  { s with acc := s.acc.write s.len b, len := s.len + 1 }

/-- Step 6 of `APPEND`: the chunk's bytes in order (R62). -/
def State.storeChunk (s : State) (chunk : List Byte) : State := chunk.foldl State.storeByte s

/-- Hand a result to the collaborator (R19). -/
def State.answer (s : State) (r : Result) : State := { s with result := r }

/-- The causes that set `errorFlag` (R51, R109). -/
def Cause.latches : Cause → Bool
  | .bmsReportedFault | .bufferOverflow => true
  | .malformedStart | .checksumMismatch _ _ | .unknownCommand | .truncated | .errorLatched | .noFrame => false

/-- Which operation reports a cause, and as what: 1, 2, 3 and 7 are `APPEND` outcomes, 4, 5, 6 and 8 `DECODE` results (R51). -/
def Cause.result : Cause → Result
  | .malformedStart => .append (.error .malformedStart)
  | .bmsReportedFault => .append (.error .bmsReportedFault)
  | .bufferOverflow => .append (.error .bufferOverflow)
  | .errorLatched => .append (.error .errorLatched)
  | .checksumMismatch received computed => .decode (.err (.checksumMismatch received computed))
  | .unknownCommand => .decode (.err .unknownCommand)
  | .truncated => .decode (.err .truncated)
  | .noFrame => .decode (.err .noFrame)

/-- TAKING AN ERROR, for every cause: `errorFlag <- 1` for the two latching causes, nothing else of the engine changes, and
the result names the cause (R120). -/
def State.raise (s : State) (c : Cause) : State :=
  { s with errorFlag := s.errorFlag || c.latches, result := c.result }

/-- THE RETURN from the latched state, which is also the clearing of the frame: `RESET` (R55, R121). The stored bytes have no
value afterwards (R11, log 5). -/
def State.clear (s : State) : State :=
  { s with acc := [], len := 0, expectedLength := none, errorFlag := false, result := .nothing }

/-- The 4-bit number of a cause (R51). -/
def Cause.code : Cause → BitVec 4
  | .malformedStart => 1
  | .bmsReportedFault => 2
  | .bufferOverflow => 3
  | .checksumMismatch _ _ => 4
  | .unknownCommand => 5
  | .truncated => 6
  | .errorLatched => 7
  | .noFrame => 8

/-- The 2-bit number of an outcome (R50). -/
def AppendOutcome.code : AppendOutcome → BitVec 2
  | .continuing => 0
  | .frameComplete => 1
  | .error _ => 2

/-- The cause an operation reports, if it failed. -/
def Result.cause : Result → Option Cause
  | .append (.error c) => some c
  | .decode (.err c) => some c
  | .nothing | .append .continuing | .append .frameComplete | .decode (.ok _) => none

/-- The cause code an operation reports; 0 is `None` (R51). -/
def Result.causeCode (r : Result) : BitVec 4 :=
  match r.cause with
  | some c => c.code
  | none => 0

end Sys2Proof.Machine
end

