-- ==== Sys2Proof/Machine/Operands.lean ====
section
/-! DEFINITION. How field values are assembled from a frame: the bounds-checked accessors, signed and packed fields, balance
bits, temperatures, and the pack-summary offsets (spec 42_decode.md R80, 30_encoding.md R45 to R48, 43_pack_summary.md R85). -/

namespace Sys2Proof.Machine

/-- `u8(F, k)`: only inside the payload, else `Truncated` (R36, R80). -/
def u8 (F : List Byte) (k : Nat) : Except Cause Byte :=
  if k < 4 ∨ k + 1 > 4 + payloadLength F then .error .truncated else .ok (byteAt F k)

/-- `u16(F, k)`: only inside the payload, else `Truncated`; big-endian (R28, R36, R80). -/
def u16 (F : List Byte) (k : Nat) : Except Cause Half :=
  if k < 4 ∨ k + 2 > 4 + payloadLength F then .error .truncated else .ok (be16 (byteAt F k) (byteAt F (k + 1)))

/-- The results of `count` reads, in order; the first one that fails ends them all (R80). -/
def readEach {α : Type} (read : Nat → Except Cause α) (start : Nat) : Nat → Except Cause (List α)
  | 0 => .ok []
  | n + 1 =>
    match read start with
    | .error c => .error c
    | .ok a =>
      match readEach read (start + 1) n with
      | .error c => .error c
      | .ok as => .ok (a :: as)

/-- `s16`: the two's-complement reading (R9, R46). -/
def s16 (v : Half) : Int := v.toInt

/-- The packed date: year offset in bits 15..9, month in 8..5, day in 4..0 (R47). -/
def unpackDate (d : Half) : ProductionDate where
  raw   := d
  year  := 2000 + (d.extractLsb' 9 7).toNat
  month := (d.extractLsb' 5 4).toNat
  day   := (d.extractLsb' 0 5).toNat

/-- Deci-Kelvin at 0 degrees Celsius (R7). -/
def tempOffset : Int := 2731

/-- Deci-Celsius from deci-Kelvin, over the integers, not wrapped (R48, R99). -/
def deciCelsius (raw : Half) : Int := (raw.toNat : Int) - tempOffset

/-- Frame indices of the pack-summary fields (R85). 16, 25 and 26 are the source's (C3); the others are the spec's general
knowledge (G1). PRESUMED by the spec (log 10), unsafe where they differ from a real module. -/
def offTotalVoltage : Nat := 4
def offCurrent : Nat := 6
def offRemainingCapacity : Nat := 8
def offNominalCapacity : Nat := 10
def offCycleCount : Nat := 12
def offProductionDate : Nat := 14
def offBalance : Nat := 16
def offProtectionStatus : Nat := 20
def offFirmwareVersion : Nat := 22
def offStateOfCharge : Nat := 23
def offMosfet : Nat := 24
def offCellCount : Nat := 25
def offTempSensorCount : Nat := 26
def offTemperatures : Nat := 27

/-- Balance bit of cell `i`, most significant bit first within each byte; no ceiling on `i` (R48, R92, R102).
UNVERIFIED against hardware, as the spec says (U4, log 11). -/
def balanceBit (F : List Byte) (i : Nat) : Except Cause Bool :=
  match u8 F (offBalance + i / 8) with
  | .error c => .error c
  | .ok b => .ok (b.getLsbD (7 - i % 8))

/-- Temperature of sensor `j` (R48, R99). -/
def temperature (F : List Byte) (j : Nat) : Except Cause Int :=
  match u16 F (offTemperatures + 2 * j) with
  | .error c => .error c
  | .ok v => .ok (deciCelsius v)

/-- Millivolts of cell `i` (R106). -/
def cellMillivolts (F : List Byte) (i : Nat) : Except Cause Half := u16 F (4 + 2 * i)

end Sys2Proof.Machine
end

