-- ==== Sys2Proof/Machine/Checksum.lean ====
section
/-! DEFINITION. The checksum functions and the order "validate first" (spec 41_checksum.md, 42_decode.md R78). -/

namespace Sys2Proof.Machine

/-- The unbounded sum of the `N + 1` bytes at frame indices `3 .. 3+N` (R70, R71). -/
def coveredSum (F : List Byte) : Nat := (((F.drop 3).take (payloadLength F + 1)).map BitVec.toNat).sum

/-- `checksum(F) = (0x10000 - S) mod 0x10000` (R70). -/
def checksum (F : List Byte) : Half := BitVec.ofInt 16 (0x10000 - (coveredSum F : Int))

/-- `received(F)`, the big-endian value behind the payload (R73). -/
def received (F : List Byte) : Half := be16 (byteAt F (4 + payloadLength F)) (byteAt F (5 + payloadLength F))

/-- `validate(F)` (R74). -/
def validate (F : List Byte) : Bool := checksum F == received F

/-- A routine runs only on a checksum-valid frame; otherwise both values are reported (R75, R78). -/
def runValidated (routine : List Byte → Except Cause DecodedRecord) (F : List Byte) : Except Cause DecodedRecord :=
  if validate F then routine F else .error (.checksumMismatch (received F) (checksum F))

/-- `Ok(record)` or `Err(cause)`, the form in which `DECODE` answers (R49). -/
def decodeResult : Except Cause DecodedRecord → DecodeResult
  | .ok record => .ok record
  | .error c => .err c

/-- Hand a decode result to the collaborator: a record, or an error taken (R76, R120). -/
def State.answerDecode (s : State) (r : Except Cause DecodedRecord) : State :=
  match r with
  | .ok record => s.answer (.decode (.ok record))
  | .error c => s.raise c

end Sys2Proof.Machine
end

