-- ==== Sys2Proof/Machine/CellVoltages.lean ====
section
/-! DEFINITION. Cell-voltage extraction, command `0x04` (spec 44_cell_voltages.md). -/

namespace Sys2Proof.Machine

/-- `cell_voltages(F)`: `N / 2` cells, floor (R105, R107, R108). -/
def cellVoltages (F : List Byte) : Except Cause DecodedRecord := do
  let mv ← readEach (cellMillivolts F) 0 (payloadLength F / 2)
  return .cellVoltages mv

/-- `CELL_VOLTAGES`: what `DECODE` answers for this frame (R78, R108). A payload of more than 255 bytes has no encoding (R42). -/
def execCellVoltages (f : Frame) (s : State) : Host.Outcome State Fault Refusal :=
  if f.wf then .next (s.answerDecode (runValidated cellVoltages (frameBytes cmdCells f)))
  else .refused .payloadTooLong

end Sys2Proof.Machine
end

