-- ==== Sys2Proof/Machine/Flags.lean ====
section
/-! DEFINITION. The derived predicates of the state: `expKnown`, completeness, `frameReady`, the phase and the status view
(spec 10_state.md R13, R16, R18). None is stored. -/

namespace Sys2Proof.Machine

/-- `expKnown` (R13). -/
def State.expKnown (s : State) : Bool := s.expectedLength.isSome

/-- `expLen + 7` once it is known, never truncated (R16). -/
def State.frameLength (s : State) : Option Nat := s.expectedLength.map (fun n => n.toNat + Config.overhead)

/-- `expKnown = 1 and len = expLen + 7`: the completion test of R63. -/
def State.complete (s : State) : Bool := decide (s.frameLength = some s.len)

/-- `frameReady` (R16). -/
def State.frameReady (s : State) : Bool := !s.errorFlag && s.complete

/-- The phases of the reassembler (R16). -/
inductive Phase where
  | error | idle | header | body | complete | overrun
deriving DecidableEq, Repr

/-- The phase (R16). With four bytes or more stored the length is known in every state that meets R15; where it is not, the
phase is named `header`, whose meaning is that the length byte is not stored. -/
def State.phase (s : State) : Phase :=
  if s.errorFlag then .error
  else if s.len = 0 then .idle
  else if s.len ≤ 3 then .header
  else match s.frameLength with
    | none => .header
    | some e => if s.len < e then .body else if s.len = e then .complete else .overrun

/-- The status view (R18): what the collaborator can read of the state, without effect. -/
structure StatusView where
  len        : Nat
  expKnown   : Bool
  /-- meaningful only if `expKnown`; absent otherwise. -/
  expLen     : Option Byte
  errorFlag  : Bool
  frameReady : Bool
deriving DecidableEq, Repr

/-- Reading the status view: not an operation, no side effect (R18). -/
def State.statusView (s : State) : StatusView where
  len        := s.len
  expKnown   := s.expKnown
  expLen     := s.expectedLength
  errorFlag  := s.errorFlag
  frameReady := s.frameReady

end Sys2Proof.Machine
end

