-- ==== Sys2Proof/Machine/PackSummary.lean ====
section
/-! DEFINITION. Pack-summary extraction, command `0x03` (spec 43_pack_summary.md). -/

namespace Sys2Proof.Machine

/-- `pack_summary(F)` (R104). -/
def packSummary (F : List Byte) : Except Cause DecodedRecord := do
  let v ← u16 F offTotalVoltage
  let c ← u16 F offCurrent
  let rem ← u16 F offRemainingCapacity
  let nom ← u16 F offNominalCapacity
  let cyc ← u16 F offCycleCount
  let d ← u16 F offProductionDate
  let prot ← u16 F offProtectionStatus
  let ver ← u8 F offFirmwareVersion
  let soc ← u8 F offStateOfCharge
  let m ← u8 F offMosfet
  let nc ← u8 F offCellCount
  let nt ← u8 F offTempSensorCount
  let bal ← readEach (balanceBit F) 0 nc.toNat
  let tmp ← readEach (temperature F) 0 nt.toNat
  return .packSummary
    { totalVoltage_cV := v
      current_cA := s16 c
      remainingCapacity_cAh := rem
      nominalCapacity_cAh := nom
      cycleCount := cyc
      productionDate := unpackDate d
      cellCount := nc
      balancing := bal
      protectionStatus := prot
      firmwareVersion_x10 := ver
      stateOfCharge_pct := soc
      chargeFet := m.getLsbD 0
      dischargeFet := m.getLsbD 1
      tempSensorCount := nt
      temperatures_dC := tmp }

/-- `PACK_SUMMARY`: what `DECODE` answers for this frame (R78, R104). A payload of more than 255 bytes has no encoding (R42). -/
def execPackSummary (f : Frame) (s : State) : Host.Outcome State Fault Refusal :=
  if f.wf then .next (s.answerDecode (runValidated packSummary (frameBytes cmdPack f)))
  else .refused .payloadTooLong

end Sys2Proof.Machine
end

