-- ==== Sys2Proof/Machine/Decoder.lean ====
section
/-! DEFINITION. `DECODE` and its dispatch (spec 42_decode.md). -/

namespace Sys2Proof.Machine

/-- The dispatch, on `F[1]` alone (R79). -/
def extract (F : List Byte) : Except Cause DecodedRecord :=
  if byteAt F 1 = cmdPack then packSummary F
  else if byteAt F 1 = cmdCells then cellVoltages F
  else .error .unknownCommand

/-- `decode_frame(F)`, for any `F` with `|F| = F[3] + 7` (R76). It does not look at `F[0]`, `F[2]` or the end marker (R84). -/
def decodeFrame (F : List Byte) : Except Cause DecodedRecord := runValidated extract F

/-- `DECODE` (R76). It writes no element of the engine (R83). -/
def execDecode (s : State) : Host.Outcome State Fault Refusal :=
  if s.frameReady then
    match s.frame with
    | .error f => .fault f
    | .ok F => if wholeFrame F then .next (s.answerDecode (decodeFrame F)) else .fault .notAWholeFrame
  else .next (s.raise .noFrame)

end Sys2Proof.Machine
end

