-- ==== Sys2Proof/Machine/Reassembler.lean ====
section
/-! DEFINITION. `RESET` and `APPEND` (spec 40_reassembler.md). -/

namespace Sys2Proof.Machine

/-- `RESET` (R55). -/
def execReset (s : State) : Host.Outcome State Fault Refusal := .next s.clear

/-- The byte of the chunk that will occupy frame index `k`, if this chunk carries it, with `n` bytes stored before (R59, R61). -/
def carried (chunk : List Byte) (n k : Nat) : Option Byte :=
  if n ≤ k ∧ k < n + chunk.length then chunk[k - n]? else none

/-- The chunk carries frame index 2 and that byte is not zero (R59). -/
def carriesFault (chunk : List Byte) (n : Nat) : Bool :=
  match carried chunk n 2 with
  | some b => b != statusOk
  | none => false

/-- Steps 1 to 4 of `APPEND`: the first test that fails names the cause (R56, R119). -/
def appendCause (chunk : List Byte) (s : State) : Option Cause :=
  if s.errorFlag then some .errorLatched
  else if s.len = 0 ∧ chunk.head? ≠ some startMarker then some .malformedStart
  else if carriesFault chunk s.len then some .bmsReportedFault
  else if s.len + chunk.length > s.cap then some .bufferOverflow
  else none

/-- Step 5: the length byte, if this chunk carries frame index 3 (R61). -/
def State.captureLength (s : State) (chunk : List Byte) : State :=
  match carried chunk s.len 3 with
  | some b => { s with expectedLength := some b }
  | none => s

/-- Steps 5 and 6. -/
def State.accept (s : State) (chunk : List Byte) : State := (s.captureLength chunk).storeChunk chunk

/-- Step 7 (R63). -/
def State.appendOutcome (s : State) : AppendOutcome := if s.complete then .frameComplete else .continuing

/-- `APPEND chunk` (R56); `APPEND []` has no meaning (R69, U7). -/
def execAppend (chunk : List Byte) (s : State) : Host.Outcome State Fault Refusal :=
  if chunk = [] then .refused .emptyChunk
  else match appendCause chunk s with
    | some c => .next (s.raise c)
    | none => .next ((s.accept chunk).answer (.append (s.accept chunk).appendOutcome))

end Sys2Proof.Machine
end

