-- ==== Sys2Proof/Machine/Request.lean ====
section
/-! DEFINITION. The two request frames (spec 30_encoding.md R53): the collaborator sends them to the BMS, the engine neither
produces nor consumes them. -/

namespace Sys2Proof.Machine

/-- `REQ_PACK_SUMMARY`: what passes from the collaborator to the BMS leaves the engine as it is, its last result included
(R53, R127 item 2, log 8). -/
def execReqPackSummary (s : State) : Host.Outcome State Fault Refusal := .next s

/-- `REQ_CELL_VOLTAGES`: likewise (R53, log 8). -/
def execReqCellVoltages (s : State) : Host.Outcome State Fault Refusal := .next s

end Sys2Proof.Machine
end

