-- ==== Sys2Proof/Machine/Dispatch.lean ====
section
/-! DEFINITION. The dispatch: one arm per instruction. -/

namespace Sys2Proof.Machine

def exec (i : Instr) (s : State) : Host.Outcome State Fault Refusal :=
  match i with
  | .reset => Sys2Proof.Machine.execReset s
  | .append chunk => Sys2Proof.Machine.execAppend chunk s
  | .decode => Sys2Proof.Machine.execDecode s
  | .packSummary f => Sys2Proof.Machine.execPackSummary f s
  | .cellVoltages f => Sys2Proof.Machine.execCellVoltages f s
  | .reqPackSummary => Sys2Proof.Machine.execReqPackSummary s
  | .reqCellVoltages => Sys2Proof.Machine.execReqCellVoltages s

end Sys2Proof.Machine
end

