-- ==== Sys2Proof/Machine/Fetch.lean ====
section
/-! DEFINITION. Where the engine finds its next operation: the port (log 2). It fetches no instructions from memory (spec
10_state.md R17). -/

namespace Sys2Proof.Machine

/-- The instruction an encoding on the port stands for. A response frame is no operation of the collaborator (R49): it comes
by `APPEND`, and `DECODE` finds it in the buffer (log 9). -/
def decodePort : Code → Except Refusal Instr
  | .frame _ => .error .frameOnPort
  | .op opCode operand =>
    match decode (.op opCode operand) with
    | .ok i => .ok i
    | .error why => .error (.rejected why)
  | .request bytes =>
    match decode (.request bytes) with
    | .ok i => .ok i
    | .error why => .error (.rejected why)

/-- What the port gives, and the state once it is taken. -/
inductive Fetched where
  | idle
  | refused (r : Refusal)
  | instr (i : Instr) (s : State)

/-- Take the oldest operation off the port. -/
def fetch (s : State) : Fetched :=
  match s.port with
  | [] => .idle
  | c :: rest =>
    match decodePort c with
    | .error r => .refused r
    | .ok i => .instr i { s with port := rest }

/-- The cells of a byte string stored from index `k` on. -/
def cellsFrom (k : Nat) : List Byte → Memory
  | [] => []
  | b :: bs => (k, b) :: cellsFrom (k + 1) bs

/-- Place an encoding where the next step finds it: an operation or a request at the head of the port; a frame in the buffer,
completed, with `DECODE` at the head of the port, in an engine whose capacity holds it (log 9). -/
def State.withCode (s : State) (c : Code) : State :=
  match c with
  | .op opCode operand => { s with port := .op opCode operand :: s.port }
  | .request bytes => { s with port := .request bytes :: s.port }
  | .frame F =>
    { s with
      acc := cellsFrom 0 F
      len := F.length
      expectedLength := F[3]?
      errorFlag := false
      cap := max s.cap F.length
      port := .op 2 [] :: s.port }

end Sys2Proof.Machine
end

