-- ==== Sys2Proof/Machine/Step.lean ====
section
/-! DEFINITION. One step: the next operation on the port, run to completion (spec 00_scope.md R5, 20_memory.md R30). -/

namespace Sys2Proof.Machine

/-- One step. With nothing on the port the engine is idle and keeps its state (R5, R124, log 6). -/
def step (s : State) : Host.Outcome State Fault Refusal :=
  match fetch s with
  | .idle => .next s
  | .refused r => .refused r
  | .instr i t => exec i t

/-- `s` with the table's instruction where the next step finds it (log 9). -/
def State.withFetchWord (s : State) (nbits w : Nat) : State := s.withCode (tableCode nbits w)

end Sys2Proof.Machine
end

