-- ==== Sys2Proof/Safety.lean ====
section
/-! DEFINITION. What counts as a sound state and a safe run (spec 10_state.md R15). -/

namespace Sys2Proof

/-- The invariant of R15 items 1 to 5, with R6's bound on `CAP` and with R11 for the storage: exactly the indices below `len`
hold a byte. -/
structure Inv (s : Machine.State) : Prop where
  /-- R6. -/
  capMin : Config.minCap ≤ s.cap
  /-- item 1. -/
  lenLeCap : s.len ≤ s.cap
  /-- R11, which gives the canonical form of the memory. -/
  stored : s.acc.map Prod.fst = List.range s.len
  /-- item 2. -/
  known : s.expKnown = true ↔ 4 ≤ s.len
  /-- item 3. -/
  declared : ∀ n, s.expectedLength = some n → s.acc.read 3 = some n
  /-- item 4. -/
  start : 1 ≤ s.len → s.acc.read 0 = some startMarker
  /-- item 5. -/
  status : 3 ≤ s.len → s.acc.read 2 = some statusOk

/-- What the collaborator has issued next, if anything, is an operation or a request. -/
def NextLegal (s : Machine.State) : Prop := ∀ c, s.port.head? = some c → ∃ i, Machine.decodePort c = .ok i

/-- The step goes on: it neither faults nor refuses. -/
def StepCompletes (s : Machine.State) : Prop := ∃ t, Machine.step s = .next t

/-- A run of `k` steps goes on to its end. -/
def RunCompletes (k : Nat) (s : Machine.State) : Prop := ∃ t, Host.Core.run core k s = .next t

end Sys2Proof
end

