-- ==== Sys2Proof/Laws/State.lean ====
section
/-! SUPPORT. One lemma per field per update of State, so that no later proof unfolds an update. -/

namespace Sys2Proof.Machine

@[simp] theorem answer_acc (s : State) (r : Result) : (s.answer r).acc = s.acc := rfl
@[simp] theorem answer_len (s : State) (r : Result) : (s.answer r).len = s.len := rfl
@[simp] theorem answer_expectedLength (s : State) (r : Result) : (s.answer r).expectedLength = s.expectedLength := rfl
@[simp] theorem answer_errorFlag (s : State) (r : Result) : (s.answer r).errorFlag = s.errorFlag := rfl
@[simp] theorem answer_cap (s : State) (r : Result) : (s.answer r).cap = s.cap := rfl
@[simp] theorem answer_port (s : State) (r : Result) : (s.answer r).port = s.port := rfl
@[simp] theorem answer_result (s : State) (r : Result) : (s.answer r).result = r := rfl

@[simp] theorem raise_acc (s : State) (c : Cause) : (s.raise c).acc = s.acc := rfl
@[simp] theorem raise_len (s : State) (c : Cause) : (s.raise c).len = s.len := rfl
@[simp] theorem raise_expectedLength (s : State) (c : Cause) : (s.raise c).expectedLength = s.expectedLength := rfl
@[simp] theorem raise_errorFlag (s : State) (c : Cause) : (s.raise c).errorFlag = (s.errorFlag || c.latches) := rfl
@[simp] theorem raise_cap (s : State) (c : Cause) : (s.raise c).cap = s.cap := rfl
@[simp] theorem raise_port (s : State) (c : Cause) : (s.raise c).port = s.port := rfl
@[simp] theorem raise_result (s : State) (c : Cause) : (s.raise c).result = c.result := rfl

@[simp] theorem clear_acc (s : State) : s.clear.acc = [] := rfl
@[simp] theorem clear_len (s : State) : s.clear.len = 0 := rfl
@[simp] theorem clear_expectedLength (s : State) : s.clear.expectedLength = none := rfl
@[simp] theorem clear_errorFlag (s : State) : s.clear.errorFlag = false := rfl
@[simp] theorem clear_cap (s : State) : s.clear.cap = s.cap := rfl
@[simp] theorem clear_port (s : State) : s.clear.port = s.port := rfl
@[simp] theorem clear_result (s : State) : s.clear.result = .nothing := rfl

@[simp] theorem storeByte_acc (s : State) (b : Byte) : (s.storeByte b).acc = s.acc.write s.len b := rfl
@[simp] theorem storeByte_len (s : State) (b : Byte) : (s.storeByte b).len = s.len + 1 := rfl
@[simp] theorem storeByte_expectedLength (s : State) (b : Byte) : (s.storeByte b).expectedLength = s.expectedLength := rfl
@[simp] theorem storeByte_errorFlag (s : State) (b : Byte) : (s.storeByte b).errorFlag = s.errorFlag := rfl
@[simp] theorem storeByte_cap (s : State) (b : Byte) : (s.storeByte b).cap = s.cap := rfl
@[simp] theorem storeByte_port (s : State) (b : Byte) : (s.storeByte b).port = s.port := rfl
@[simp] theorem storeByte_result (s : State) (b : Byte) : (s.storeByte b).result = s.result := rfl

/-- A decode result changes nothing but the result, and the latch only for a latching cause. -/
theorem answerDecode_eq (s : State) (r : Except Cause DecodedRecord) :
    s.answerDecode r = match r with
      | .ok record => { s with result := .decode (.ok record) }
      | .error c => { s with errorFlag := s.errorFlag || c.latches, result := c.result } := by
  cases r <;> rfl

end Sys2Proof.Machine
end

