-- ==== Sys2Proof/Laws/Memory.lean ====
section
/-! SUPPORT. The laws of the buffer's storage: read after write, and the canonical form (spec 20_memory.md R26). -/

namespace Sys2Proof.Machine

/-- A write is read back, and every other index reads as before. -/
theorem Memory.read_write (m : Memory) (k j : Nat) (b : Byte) :
    (m.write k b).read j = if j = k then some b else m.read j := by
  induction m with
  | nil =>
    by_cases h : j = k
    · simp [Memory.write, Memory.read, h]
    · simp [Memory.write, Memory.read, h, Ne.symm h]
  | cons e m ih =>
    obtain ⟨a, c⟩ := e
    simp only [Memory.write]
    by_cases h₁ : k < a
    · by_cases h : j = k
      · simp [h₁, h, Memory.read]
      · simp [h₁, h, Memory.read, Ne.symm h]
    · by_cases h₂ : k = a
      · subst h₂
        by_cases h : j = k
        · simp [h, Memory.read]
        · simp [h, Memory.read, Ne.symm h]
      · simp only [h₁, h₂, if_false, Memory.read, ih]
        by_cases h : a = j
        · have : j ≠ k := fun e => h₂ (by omega)
          simp [h, this]
        · simp [h]

/-- The indices listed after a write are those listed before and the written one. -/
theorem Memory.mem_write_fst {m : Memory} {k : Nat} {b : Byte} {e : Host.Cell} (h : e ∈ m.write k b) :
    e.1 = k ∨ e ∈ m := by
  induction m with
  | nil => simp [Memory.write] at h; exact .inl (by simp [h])
  | cons x m ih =>
    obtain ⟨a, c⟩ := x
    simp only [Memory.write] at h
    split at h
    · rcases List.mem_cons.1 h with rfl | h
      · exact .inl rfl
      · exact .inr h
    · split at h
      · rcases List.mem_cons.1 h with rfl | h
        · exact .inl rfl
        · exact .inr (List.mem_cons_of_mem _ h)
      · rcases List.mem_cons.1 h with rfl | h
        · exact .inr List.mem_cons_self
        · rcases ih h with h | h
          · exact .inl h
          · exact .inr (List.mem_cons_of_mem _ h)

/-- A write keeps the canonical form. -/
theorem Memory.wf_write {m : Memory} (k : Nat) (b : Byte) (h : m.wf = true) : (m.write k b).wf = true := by
  simp only [Memory.wf, decide_eq_true_eq] at h ⊢
  induction m with
  | nil => simp [Memory.write]
  | cons x m ih =>
    obtain ⟨a, c⟩ := x
    rw [List.pairwise_cons] at h
    simp only [Memory.write]
    split
    · rename_i hk
      refine List.pairwise_cons.2 ⟨fun e he => ?_, List.pairwise_cons.2 h⟩
      rcases List.mem_cons.1 he with rfl | he
      · exact hk
      · exact Nat.lt_trans hk (h.1 e he)
    · split
      · rename_i hk
        subst hk
        exact List.pairwise_cons.2 ⟨h.1, h.2⟩
      · rename_i h₁ h₂
        refine List.pairwise_cons.2 ⟨fun e he => ?_, ih h.2⟩
        rcases Memory.mem_write_fst he with he | he
        · simp only [he]; omega
        · exact h.1 e he

/-- The storage at reset is canonical. -/
theorem Memory.wf_reset : State.reset.acc.wf = true := by decide

/-- An index is listed exactly when it reads as a byte. -/
theorem Memory.read_isSome (m : Memory) (k : Nat) : (m.read k).isSome = true ↔ k ∈ m.map Prod.fst := by
  induction m with
  | nil => simp [Memory.read]
  | cons x m ih =>
    obtain ⟨a, c⟩ := x
    by_cases h : a = k
    · simp [Memory.read, h]
    · simp only [Memory.read, h, if_false, ih, List.map_cons, List.mem_cons]
      exact ⟨.inr, fun e => e.resolve_left (fun e => h e.symm)⟩

/-- A write at an index above every listed one is listed last. -/
theorem Memory.fst_write_last {m : Memory} {k : Nat} {b : Byte} (h : ∀ a ∈ m.map Prod.fst, a < k) :
    (m.write k b).map Prod.fst = m.map Prod.fst ++ [k] := by
  induction m with
  | nil => rfl
  | cons x m ih =>
    obtain ⟨a, c⟩ := x
    have ha : a < k := h a (by simp)
    have hm : ∀ a ∈ m.map Prod.fst, a < k := fun a hm => h a (by simp only [List.map_cons, List.mem_cons]; exact .inr hm)
    simp [Memory.write, show ¬ k < a by omega, show k ≠ a by omega, ih hm]

/-- A prefix of `n` listed indices is canonical. -/
theorem Memory.wf_of_range {m : Memory} {n : Nat} (h : m.map Prod.fst = List.range n) : m.wf = true := by
  have : (m.map Prod.fst).Pairwise (· < ·) := h ▸ List.pairwise_lt_range
  simpa [Memory.wf, List.pairwise_map] using this

end Sys2Proof.Machine
end

