-- ==== Sys2Proof/Laws/Ops.lean ====
section
/-! SUPPORT. One lemma per shared operation that says all it can do: storing a chunk, reading the frame, assembling fields. -/

namespace Sys2Proof.Machine

/-- What storing a chunk leaves alone, and where `len` goes (R62). -/
theorem storeChunk_fields (s : State) (ch : List Byte) :
    (s.storeChunk ch).len = s.len + ch.length ∧ (s.storeChunk ch).expectedLength = s.expectedLength ∧
    (s.storeChunk ch).errorFlag = s.errorFlag ∧ (s.storeChunk ch).cap = s.cap ∧
    (s.storeChunk ch).port = s.port ∧ (s.storeChunk ch).result = s.result := by
  induction ch generalizing s with
  | nil => simp [State.storeChunk]
  | cons b ch ih =>
    have h := ih (s.storeByte b)
    simp only [State.storeChunk, List.foldl_cons, List.length_cons] at h ⊢
    simp only [storeByte_len, storeByte_expectedLength, storeByte_errorFlag, storeByte_cap, storeByte_port,
      storeByte_result] at h
    exact ⟨by rw [h.1]; omega, h.2⟩

/-- The bytes stored are the chunk's, in order, from `len` on; every other index reads as before (R26, R62). -/
theorem storeChunk_read (s : State) (ch : List Byte) (k : Nat) :
    (s.storeChunk ch).acc.read k = if s.len ≤ k ∧ k < s.len + ch.length then ch[k - s.len]? else s.acc.read k := by
  induction ch generalizing s with
  | nil =>
    rw [if_neg (by simp)]
    rfl
  | cons b ch ih =>
    have h := ih (s.storeByte b)
    simp only [State.storeChunk, List.foldl_cons] at h ⊢
    rw [h, storeByte_len, storeByte_acc, Memory.read_write, List.length_cons]
    by_cases h₁ : k = s.len
    · subst h₁
      rw [if_neg (by omega), if_pos rfl, if_pos (by omega), Nat.sub_self]
      rfl
    · rw [if_neg h₁]
      by_cases h₂ : s.len + 1 ≤ k ∧ k < s.len + 1 + ch.length
      · rw [if_pos h₂, if_pos (by omega), show k - s.len = (k - (s.len + 1)) + 1 by omega]
        rfl
      · rw [if_neg h₂, if_neg (by omega)]

/-- Storing a chunk behind a full prefix gives a full prefix (R11). -/
theorem storeChunk_stored (s : State) (ch : List Byte) (h : s.acc.map Prod.fst = List.range s.len) :
    (s.storeChunk ch).acc.map Prod.fst = List.range (s.len + ch.length) := by
  induction ch generalizing s with
  | nil => simpa [State.storeChunk] using h
  | cons b ch ih =>
    have h' : (s.storeByte b).acc.map Prod.fst = List.range (s.storeByte b).len := by
      rw [storeByte_acc, storeByte_len, Memory.fst_write_last (fun a ha => by rw [h] at ha; exact List.mem_range.1 ha), h,
        List.range_succ]
    have e := ih (s.storeByte b) h'
    simp only [State.storeChunk, List.foldl_cons, List.length_cons, storeByte_len] at e ⊢
    rw [e]
    congr 1
    omega

/-- Storing a chunk keeps the canonical form. -/
theorem storeChunk_wf (s : State) (ch : List Byte) (h : s.acc.wf = true) : (s.storeChunk ch).acc.wf = true := by
  induction ch generalizing s with
  | nil => exact h
  | cons b ch ih => exact ih (s.storeByte b) (Memory.wf_write _ _ h)

/-- When a byte can be read, and what it is (R25, R11). -/
theorem readByte_ok_iff (s : State) (k : Nat) (b : Byte) :
    s.readByte k = .ok b ↔ k < s.cap ∧ s.acc.read k = some b := by
  unfold State.readByte
  by_cases h : s.cap ≤ k
  · simp [h]
  · rw [if_neg h]
    cases e : s.acc.read k <;> simp [Nat.lt_of_not_le h]

/-- Reading `n` bytes gives the `n` bytes there, or does not happen. -/
theorem readBytes_ok_iff (s : State) (k n : Nat) (F : List Byte) :
    s.readBytes k n = .ok F ↔ F.length = n ∧ ∀ i b, F[i]? = some b → s.readByte (k + i) = .ok b := by
  induction n generalizing k F with
  | zero =>
    cases F <;> simp [State.readBytes]
  | succ n ih =>
    simp only [State.readBytes]
    cases e : s.readByte k with
    | error f =>
      simp only [reduceCtorEq, false_iff, not_and, not_forall]
      intro hl
      cases F with
      | nil => simp at hl
      | cons x F => exact ⟨0, x, rfl, by simp [e]⟩
    | ok b =>
      cases F with
      | nil =>
        cases s.readBytes (k + 1) n <;> simp
      | cons x F =>
        have h := ih (k + 1) F
        constructor
        · intro hr
          cases e' : s.readBytes (k + 1) n with
          | error f => simp [e'] at hr
          | ok bs =>
            simp only [e', Except.ok.injEq, List.cons.injEq] at hr
            obtain ⟨rfl, rfl⟩ := hr
            obtain ⟨hl, hb⟩ := h.1 e'
            refine ⟨by simp [hl], fun i c hc => ?_⟩
            cases i with
            | zero => simp at hc; simpa [hc] using e
            | succ i => rw [show k + (i + 1) = k + 1 + i by omega]; exact hb i c (by simpa using hc)
        · rintro ⟨hl, hb⟩
          have hx := hb 0 x rfl
          rw [Nat.add_zero, e, Except.ok.injEq] at hx
          subst hx
          rw [h.2 ⟨by simpa using hl, fun i c hc => by
            rw [show k + 1 + i = k + (i + 1) by omega]; exact hb (i + 1) c (by simpa using hc)⟩]

/-- The frame operand of `DECODE` is the stored prefix. -/
theorem frame_ok_iff (s : State) (F : List Byte) :
    s.frame = .ok F ↔ F.length = s.len ∧ ∀ k b, F[k]? = some b → k < s.cap ∧ s.acc.read k = some b := by
  simp only [State.frame, readBytes_ok_iff, Nat.zero_add, readByte_ok_iff]

/-- In a sound state the frame operand can always be read, and it is what the storage holds. -/
theorem frame_of_inv {s : State} (h : Inv s) :
    ∃ F, s.frame = .ok F ∧ F.length = s.len ∧ ∀ k, F[k]? = s.acc.read k := by
  have some_of : ∀ k, k < s.len → ∃ b, s.acc.read k = some b := fun k hk =>
    Option.isSome_iff_exists.1 ((Memory.read_isSome _ _).2 (by rw [h.stored]; exact List.mem_range.2 hk))
  have none_of : ∀ k, s.len ≤ k → s.acc.read k = none := fun k hk => by
    rw [← Option.not_isSome_iff_eq_none, Memory.read_isSome, h.stored, List.mem_range]
    omega
  let F : List Byte := (List.range s.len).map (fun k => (s.acc.read k).getD 0)
  have hF : ∀ k, F[k]? = s.acc.read k := by
    intro k
    by_cases hk : k < s.len
    · obtain ⟨b, hb⟩ := some_of k hk
      simp [F, hk, hb]
    · rw [none_of k (by omega)]
      simp [F]
      omega
  have hl : F.length = s.len := by simp [F]
  have hlen := h.lenLeCap
  exact ⟨F, (frame_ok_iff s F).2 ⟨hl, fun k b hb => ⟨by
    have := (List.getElem?_eq_some_iff.1 hb).1; omega, hF k ▸ hb⟩⟩, hl, hF⟩

/-- `be16` as a number (R45). -/
theorem toNat_be16 (hi lo : Byte) : (be16 hi lo).toNat = hi.toNat * 256 + lo.toNat := by
  rw [be16, BitVec.toNat_append, Nat.shiftLeft_eq, Nat.mul_comm, ← Nat.two_pow_add_eq_or_of_lt lo.isLt]

/-- A 16-bit field is its two bytes (R28). -/
theorem be16_bytes (h : Half) : be16 (highByte h) (lowByte h) = h := by
  apply BitVec.eq_of_toNat_eq
  rw [toNat_be16, highByte, lowByte, BitVec.extractLsb'_toNat, BitVec.extractLsb'_toNat, Nat.shiftRight_eq_div_pow]
  have := h.isLt
  omega

/-- The high byte of a pair. -/
theorem highByte_be16 (hi lo : Byte) : highByte (be16 hi lo) = hi := by
  apply BitVec.eq_of_toNat_eq
  rw [highByte, BitVec.extractLsb'_toNat, toNat_be16, Nat.shiftRight_eq_div_pow]
  have := hi.isLt
  have := lo.isLt
  omega

/-- The low byte of a pair. -/
theorem lowByte_be16 (hi lo : Byte) : lowByte (be16 hi lo) = lo := by
  apply BitVec.eq_of_toNat_eq
  rw [lowByte, BitVec.extractLsb'_toNat, toNat_be16, Nat.shiftRight_zero]
  have := hi.isLt
  have := lo.isLt
  omega

/-- When a byte read succeeds, and what it reads (R80). -/
theorem u8_ok_iff (F : List Byte) (k : Nat) (b : Byte) :
    u8 F k = .ok b ↔ (4 ≤ k ∧ k + 1 ≤ 4 + payloadLength F) ∧ b = byteAt F k := by
  unfold u8
  split
  · simp; omega
  · simp only [Except.ok.injEq]
    exact ⟨fun h => ⟨by omega, h.symm⟩, fun h => h.2.symm⟩

/-- A byte read that fails fails with `Truncated` (R80). -/
theorem u8_error_iff (F : List Byte) (k : Nat) (c : Cause) :
    u8 F k = .error c ↔ c = .truncated ∧ (k < 4 ∨ k + 1 > 4 + payloadLength F) := by
  unfold u8
  split <;> simp_all [eq_comm]

/-- When a pair read succeeds, and what it reads (R80). -/
theorem u16_ok_iff (F : List Byte) (k : Nat) (h : Half) :
    u16 F k = .ok h ↔ (4 ≤ k ∧ k + 2 ≤ 4 + payloadLength F) ∧ h = be16 (byteAt F k) (byteAt F (k + 1)) := by
  unfold u16
  split
  · simp; omega
  · simp only [Except.ok.injEq]
    exact ⟨fun h => ⟨by omega, h.symm⟩, fun h => h.2.symm⟩

/-- A pair read that fails fails with `Truncated` (R80). -/
theorem u16_error_iff (F : List Byte) (k : Nat) (c : Cause) :
    u16 F k = .error c ↔ c = .truncated ∧ (k < 4 ∨ k + 2 > 4 + payloadLength F) := by
  unfold u16
  split <;> simp_all [eq_comm]

/-- A sequence of reads succeeds when each does, with the results in order. -/
theorem readEach_ok_iff {α : Type} (read : Nat → Except Cause α) (start n : Nat) (as : List α) :
    readEach read start n = .ok as ↔ as.length = n ∧ ∀ i a, as[i]? = some a → read (start + i) = .ok a := by
  induction n generalizing start as with
  | zero => cases as <;> simp [readEach]
  | succ n ih =>
    simp only [readEach]
    cases e : read start with
    | error c =>
      simp only [reduceCtorEq, false_iff, not_and, not_forall]
      intro hl
      cases as with
      | nil => simp at hl
      | cons x as => exact ⟨0, x, rfl, by simp [e]⟩
    | ok b =>
      cases as with
      | nil => cases readEach read (start + 1) n <;> simp
      | cons x as =>
        have h := ih (start + 1) as
        constructor
        · intro hr
          cases e' : readEach read (start + 1) n with
          | error c => simp [e'] at hr
          | ok bs =>
            simp only [e', Except.ok.injEq, List.cons.injEq] at hr
            obtain ⟨rfl, rfl⟩ := hr
            obtain ⟨hl, hb⟩ := h.1 e'
            refine ⟨by simp [hl], fun i a ha => ?_⟩
            cases i with
            | zero => simp at ha; simpa [ha] using e
            | succ i => rw [show start + (i + 1) = start + 1 + i by omega]; exact hb i a (by simpa using ha)
        · rintro ⟨hl, hb⟩
          have hx := hb 0 x rfl
          rw [Nat.add_zero, e, Except.ok.injEq] at hx
          subst hx
          rw [h.2 ⟨by simpa using hl, fun i a ha => by
            rw [show start + 1 + i = start + (i + 1) by omega]; exact hb (i + 1) a (by simpa using ha)⟩]

/-- A sequence of reads that all succeed has a result. -/
theorem readEach_exists {α : Type} {read : Nat → Except Cause α} {start n : Nat}
    (h : ∀ i, i < n → ∃ a, read (start + i) = .ok a) : ∃ as, readEach read start n = .ok as := by
  induction n generalizing start with
  | zero => exact ⟨[], rfl⟩
  | succ n ih =>
    obtain ⟨a, ha⟩ := h 0 (by omega)
    obtain ⟨as, has⟩ := ih (start := start + 1) (fun i hi => by
      rw [show start + 1 + i = start + (i + 1) by omega]; exact h (i + 1) (by omega))
    exact ⟨a :: as, by simp only [readEach, show read start = .ok a from ha, has]⟩

/-- A sequence of reads fails when one of them does, with the cause of the first that does. -/
theorem readEach_error {α : Type} {read : Nat → Except Cause α} {start n : Nat} {c : Cause}
    (h : readEach read start n = .error c) : ∃ i, i < n ∧ read (start + i) = .error c := by
  induction n generalizing start with
  | zero => simp [readEach] at h
  | succ n ih =>
    simp only [readEach] at h
    cases e : read start with
    | error d => simp only [e, Except.error.injEq] at h; exact ⟨0, by omega, by rw [Nat.add_zero, e, h]⟩
    | ok a =>
      cases e' : readEach read (start + 1) n with
      | ok as => simp [e, e'] at h
      | error d =>
        simp only [e, e', Except.error.injEq] at h
        subst h
        obtain ⟨i, hi, hr⟩ := ih e'
        exact ⟨i + 1, by omega, by rw [show start + (i + 1) = start + 1 + i by omega]; exact hr⟩

end Sys2Proof.Machine
end

