-- ==== Sys2Proof/Laws/Encoding.lean ====
section
/-! SUPPORT. The layout of an encoded frame, position by position (spec 30_encoding.md R37). -/

namespace Sys2Proof

theorem frameBytes_length (cmd : Byte) (f : Frame) : (frameBytes cmd f).length = f.payload.length + 7 := by
  simp [frameBytes]

theorem byteAt_frameBytes_start (cmd : Byte) (f : Frame) : byteAt (frameBytes cmd f) 0 = startMarker := by
  simp [frameBytes, byteAt]

theorem byteAt_frameBytes_command (cmd : Byte) (f : Frame) : byteAt (frameBytes cmd f) 1 = cmd := by
  simp [frameBytes, byteAt]

theorem byteAt_frameBytes_status (cmd : Byte) (f : Frame) : byteAt (frameBytes cmd f) 2 = statusOk := by
  simp [frameBytes, byteAt]

theorem payloadLength_frameBytes {cmd : Byte} {f : Frame} (h : f.wf = true) :
    payloadLength (frameBytes cmd f) = f.payload.length := by
  simp only [Frame.wf, decide_eq_true_eq] at h
  simp [frameBytes, byteAt, payloadLength]
  omega

/-- Payload index `k` is frame index `4 + k` (R9). -/
theorem byteAt_frameBytes_payload {cmd : Byte} {f : Frame} {k : Nat} (h : k < f.payload.length) :
    byteAt (frameBytes cmd f) (4 + k) = f.payload.getD k 0 := by
  simp only [frameBytes, byteAt, List.getD_eq_getElem?_getD, List.append_assoc]
  rw [List.getElem?_append_right (by simp), List.getElem?_append_left (by simp; omega)]
  simp

/-- The three bytes behind the payload (R37). -/
theorem byteAt_frameBytes_tail (cmd : Byte) (f : Frame) (j : Nat) :
    byteAt (frameBytes cmd f) (4 + f.payload.length + j)
      = [highByte f.checksum, lowByte f.checksum, f.endMarker].getD j 0 := by
  simp only [frameBytes, byteAt, List.getD_eq_getElem?_getD]
  rw [List.getElem?_append_right (by simp; omega)]
  congr 2
  simp
  omega

theorem wholeFrame_frameBytes {cmd : Byte} {f : Frame} (h : f.wf = true) :
    wholeFrame (frameBytes cmd f) = true := by
  simp [wholeFrame, payloadLength_frameBytes h, frameBytes_length, Config.overhead]

/-- The payload of an encoded frame is its payload. -/
theorem frameBytes_payload {cmd : Byte} {f : Frame} (h : f.wf = true) :
    ((frameBytes cmd f).drop 4).take (payloadLength (frameBytes cmd f)) = f.payload := by
  rw [payloadLength_frameBytes h]
  simp [frameBytes]

/-- A byte sequence is whole when it has a length byte and the length that byte declares (R38). -/
theorem wholeFrame_iff (F : List Byte) :
    wholeFrame F = true ↔ 4 ≤ F.length ∧ F.length = payloadLength F + 7 := by
  rw [wholeFrame, decide_eq_true_eq, Config.overhead]

/-- Inside a byte sequence `byteAt` is indexing. -/
theorem getElem?_of_lt {F : List Byte} {k : Nat} (h : k < F.length) : F[k]? = some (byteAt F k) := by
  simp [byteAt, List.getD_eq_getElem?_getD, h]

end Sys2Proof

namespace Sys2Proof.Machine

/-- `received` of an encoded frame is its checksum operand (R73). -/
theorem received_frameBytes {cmd : Byte} {f : Frame} (h : f.wf = true) :
    received (frameBytes cmd f) = f.checksum := by
  have h0 := byteAt_frameBytes_tail cmd f 0
  have h1 := byteAt_frameBytes_tail cmd f 1
  rw [received, payloadLength_frameBytes h, ← be16_bytes f.checksum]
  rw [show 5 + f.payload.length = 4 + f.payload.length + 1 by omega, h1]
  rw [Nat.add_zero] at h0
  rw [h0]
  simp

/-- `checksum` covers the length byte and the payload alone, so of an encoded frame it is a function of the payload (R70, R71). -/
theorem checksum_frameBytes {cmd : Byte} {f : Frame} (h : f.wf = true) :
    checksum (frameBytes cmd f)
      = BitVec.ofInt 16 (0x10000 - ((f.payload.length + (f.payload.map BitVec.toNat).sum : Nat) : Int)) := by
  have hN : f.payload.length % 256 = f.payload.length := by
    simp only [Frame.wf, decide_eq_true_eq] at h; omega
  have : ((frameBytes cmd f).drop 3).take (payloadLength (frameBytes cmd f) + 1)
      = BitVec.ofNat 8 f.payload.length :: f.payload := by
    rw [payloadLength_frameBytes h]
    simp [frameBytes]
  rw [checksum, coveredSum, this]
  simp [hN]

end Sys2Proof.Machine
end

