-- ==== Sys2Proof/Laws/PerInstr.lean ====
section
/-! SUPPORT. The decoder yields well-formed instructions only, one lemma per instruction. -/

namespace Sys2Proof.Laws

/-- Any encoding that decodes to `i` makes `i` well-formed. -/
def DecodedWellFormed.Statement (i : Instr) : Prop := ∀ c : Code, decode c = .ok i → i.wf = true

theorem frameOperands_wf (F : List Byte) : (frameOperands F).wf = true := by
  have := (byteAt F 3).isLt
  simp only [Frame.wf, frameOperands, payloadLength, List.length_take, decide_eq_true_eq]
  omega

theorem decodeFrameRow_wf {F : List Byte} {i : Instr} (h : decodeFrameRow F = .ok i) : i.wf = true := by
  unfold decodeFrameRow at h
  repeat' split at h
  all_goals first
    | cases h; exact frameOperands_wf F
    | cases h

theorem decode_append_ne {c : Code} {chunk : List Byte} (h : decode c = .ok (.append chunk)) : chunk ≠ [] := by
  cases c with
  | op o l =>
    simp only [decode, decodeOp] at h
    repeat' split at h
    all_goals first
      | cases h; assumption
      | cases h
  | frame F =>
    simp only [decode, decodeFrameRow] at h
    repeat' split at h
    all_goals cases h
  | request l =>
    simp only [decode, decodeRequest] at h
    repeat' split at h
    all_goals cases h

theorem decode_frame_wf {c : Code} {f : Frame} (h : decode c = .ok (.packSummary f) ∨ decode c = .ok (.cellVoltages f)) :
    f.wf = true := by
  cases c with
  | frame F =>
    rcases h with h | h
    · exact decodeFrameRow_wf (i := .packSummary f) h
    · exact decodeFrameRow_wf (i := .cellVoltages f) h
  | op o l =>
    simp only [decode, decodeOp] at h
    repeat' split at h
    all_goals simp at h
  | request l =>
    simp only [decode, decodeRequest] at h
    repeat' split at h
    all_goals simp at h

theorem DecodedWellFormed.reset : DecodedWellFormed.Statement .reset := fun _ _ => rfl

theorem DecodedWellFormed.append (chunk : List Byte) : DecodedWellFormed.Statement (.append chunk) := fun _ h => by
  simpa [Instr.wf] using decode_append_ne h

theorem DecodedWellFormed.decode : DecodedWellFormed.Statement .decode := fun _ _ => rfl

theorem DecodedWellFormed.packSummary (f : Frame) : DecodedWellFormed.Statement (.packSummary f) := fun _ h =>
  decode_frame_wf (.inl h)

theorem DecodedWellFormed.cellVoltages (f : Frame) : DecodedWellFormed.Statement (.cellVoltages f) := fun _ h =>
  decode_frame_wf (.inr h)

theorem DecodedWellFormed.reqPackSummary : DecodedWellFormed.Statement .reqPackSummary := fun _ _ => rfl

theorem DecodedWellFormed.reqCellVoltages : DecodedWellFormed.Statement .reqCellVoltages := fun _ _ => rfl

end Sys2Proof.Laws
end

