-- ==== Sys2Proof/Laws/Reassembler.lean ====
section
/-! SUPPORT. What `APPEND` can do (spec 40_reassembler.md). -/

namespace Sys2Proof.Machine

/-- If `APPEND` answers a next state, either an error was taken or the chunk was accepted. -/
theorem execAppend_cases {chunk : List Byte} {s t : State} (h : execAppend chunk s = .next t) :
    chunk ≠ [] ∧ ((∃ c, appendCause chunk s = some c ∧ t = s.raise c) ∨
      (appendCause chunk s = none ∧ t = (s.accept chunk).answer (.append (s.accept chunk).appendOutcome))) := by
  unfold execAppend at h
  split at h
  · cases h
  · refine ⟨by assumption, ?_⟩
    cases e : appendCause chunk s with
    | some c => rw [e] at h; exact .inl ⟨c, rfl, by cases h; rfl⟩
    | none => rw [e] at h; exact .inr ⟨rfl, by cases h; rfl⟩

/-- The causes `APPEND` can report (R51). -/
theorem appendCause_mem {chunk : List Byte} {s : State} {c : Cause} (h : appendCause chunk s = some c) :
    c = .errorLatched ∨ c = .malformedStart ∨ c = .bmsReportedFault ∨ c = .bufferOverflow := by
  unfold appendCause at h
  split at h
  · cases h; simp
  · split at h
    · cases h; simp
    · split at h
      · cases h; simp
      · split at h
        · cases h; simp
        · cases h

/-- A chunk is accepted exactly when none of the four tests fails (R56). -/
theorem appendCause_none_iff (chunk : List Byte) (s : State) :
    appendCause chunk s = none ↔ s.errorFlag = false ∧ (s.len = 0 → chunk.head? = some startMarker) ∧
      carriesFault chunk s.len = false ∧ s.len + chunk.length ≤ s.cap := by
  unfold appendCause
  by_cases h₁ : s.errorFlag = true
  · simp [h₁]
  · by_cases h₂ : s.len = 0 ∧ chunk.head? ≠ some startMarker
    · simp [h₁, h₂.1, h₂.2]
    · by_cases h₃ : carriesFault chunk s.len = true
      · simp [h₁, h₂, h₃]
      · by_cases h₄ : s.len + chunk.length > s.cap
        · simp [h₁, h₂, h₃, h₄]
        · rw [if_neg h₁, if_neg h₂, if_neg h₃, if_neg h₄]
          simp only [true_iff]
          exact ⟨by simpa using h₁, fun h => by_contra fun e => h₂ ⟨h, e⟩, by simpa using h₃, by omega⟩

/-- The byte carried for a frame index is the chunk's byte at that distance. -/
theorem carried_eq (chunk : List Byte) (n k : Nat) :
    carried chunk n k = if n ≤ k ∧ k < n + chunk.length then chunk[k - n]? else none := rfl

/-- What accepting a chunk does to every field (R61, R62). -/
theorem accept_fields (s : State) (chunk : List Byte) :
    (s.accept chunk).len = s.len + chunk.length ∧
    (s.accept chunk).expectedLength = (carried chunk s.len 3).or s.expectedLength ∧
    (s.accept chunk).errorFlag = s.errorFlag ∧ (s.accept chunk).cap = s.cap ∧
    (s.accept chunk).port = s.port ∧ (s.accept chunk).result = s.result := by
  have h := storeChunk_fields (s.captureLength chunk) chunk
  unfold State.accept
  unfold State.captureLength at h ⊢
  cases e : carried chunk s.len 3 <;> simpa [e] using h

/-- What accepting a chunk does to the storage (R62). -/
theorem accept_read (s : State) (chunk : List Byte) (k : Nat) :
    (s.accept chunk).acc.read k =
      if s.len ≤ k ∧ k < s.len + chunk.length then chunk[k - s.len]? else s.acc.read k := by
  have h := storeChunk_read (s.captureLength chunk) chunk k
  unfold State.accept
  unfold State.captureLength at h ⊢
  cases e : carried chunk s.len 3 <;> simpa [e] using h

/-- Accepting a chunk keeps the canonical form. -/
theorem accept_wf (s : State) (chunk : List Byte) (h : s.acc.wf = true) : (s.accept chunk).acc.wf = true := by
  unfold State.accept
  apply storeChunk_wf
  unfold State.captureLength
  cases carried chunk s.len 3 <;> exact h

/-- Accepting a chunk behind a full prefix gives a full prefix. -/
theorem accept_stored (s : State) (chunk : List Byte) (h : s.acc.map Prod.fst = List.range s.len) :
    (s.accept chunk).acc.map Prod.fst = List.range (s.len + chunk.length) := by
  have := storeChunk_stored (s.captureLength chunk) chunk
  unfold State.accept
  unfold State.captureLength at this ⊢
  cases e : carried chunk s.len 3 <;> rw [e] at this <;> exact this h

/-- Completeness as an equation (R63). -/
theorem complete_iff (s : State) :
    s.complete = true ↔ ∃ n, s.expectedLength = some n ∧ s.len = n.toNat + 7 := by
  simp only [State.complete, State.frameLength, decide_eq_true_eq, Option.map_eq_some_iff, Config.overhead]
  exact ⟨fun ⟨n, h, e⟩ => ⟨n, h, e.symm⟩, fun ⟨n, h, e⟩ => ⟨n, h, e.symm⟩⟩

/-- `frameReady` (R16). -/
theorem frameReady_iff (s : State) :
    s.frameReady = true ↔ s.errorFlag = false ∧ ∃ n, s.expectedLength = some n ∧ s.len = n.toNat + 7 := by
  simp [State.frameReady, complete_iff]

end Sys2Proof.Machine
end

