-- ==== Sys2Proof/Laws/Decoder.lean ====
section
/-! SUPPORT. What the decoder's routines and `DECODE` can do (spec 41_checksum.md to 44_cell_voltages.md). -/

namespace Sys2Proof.Machine

/-- The sum of bytes is at most 255 for each. -/
theorem sum_toNat_le (l : List Byte) : (l.map BitVec.toNat).sum ≤ 255 * l.length := by
  induction l with
  | nil => simp
  | cons b l ih =>
    have := b.isLt
    simp only [List.map_cons, List.sum_cons, List.length_cons]
    omega

/-- The covered sum is the length byte and the payload's sum (R71). -/
theorem coveredSum_eq {F : List Byte} (h : wholeFrame F = true) :
    coveredSum F = payloadLength F + (((F.drop 4).take (payloadLength F)).map BitVec.toNat).sum := by
  rw [wholeFrame_iff] at h
  have : F.drop 3 = byteAt F 3 :: F.drop 4 := by
    rw [List.drop_eq_getElem_cons (by omega)]
    simp [byteAt, List.getD_eq_getElem?_getD, show 3 < F.length by omega]
  rw [coveredSum, this, List.take_succ_cons, List.map_cons, List.sum_cons]
  rfl

/-- `checksum` as a number, for a sum that fits 16 bits (R70, R72). -/
theorem checksum_toNat {F : List Byte} (h : coveredSum F ≤ 65536) :
    (checksum F).toNat = (65536 - coveredSum F) % 65536 := by
  rw [checksum, BitVec.toNat_ofInt]
  omega

/-- The balance bit of a cell: the bit R92 selects, when its byte lies in the payload. -/
theorem balanceBit_ok_iff (F : List Byte) (i : Nat) (b : Bool) :
    balanceBit F i = .ok b ↔ 12 + i / 8 < payloadLength F ∧ b = (byteAt F (16 + i / 8)).getLsbD (7 - i % 8) := by
  unfold balanceBit offBalance
  cases e : u8 F (16 + i / 8) with
  | error c =>
    obtain ⟨-, h⟩ := (u8_error_iff _ _ _).1 e
    simp; omega
  | ok v =>
    obtain ⟨h, rfl⟩ := (u8_ok_iff _ _ _).1 e
    simp only [Except.ok.injEq]
    exact ⟨fun e => ⟨by omega, e.symm⟩, fun e => e.2.symm⟩

/-- A balance bit that cannot be read is `Truncated`. -/
theorem balanceBit_error_iff (F : List Byte) (i : Nat) (c : Cause) :
    balanceBit F i = .error c ↔ c = .truncated ∧ payloadLength F ≤ 12 + i / 8 := by
  unfold balanceBit offBalance
  cases e : u8 F (16 + i / 8) with
  | error d =>
    obtain ⟨rfl, h⟩ := (u8_error_iff _ _ _).1 e
    simp only [Except.error.injEq]
    exact ⟨fun e => ⟨e.symm, by omega⟩, fun e => e.1.symm⟩
  | ok v =>
    obtain ⟨h, rfl⟩ := (u8_ok_iff _ _ _).1 e
    simp; omega

/-- The temperature of a sensor, when its two bytes lie in the payload (R99). -/
theorem temperature_ok_iff (F : List Byte) (j : Nat) (t : Int) :
    temperature F j = .ok t ↔ 23 + 2 * j + 2 ≤ payloadLength F ∧
      t = deciCelsius (be16 (byteAt F (27 + 2 * j)) (byteAt F (28 + 2 * j))) := by
  unfold temperature offTemperatures
  cases e : u16 F (27 + 2 * j) with
  | error c =>
    obtain ⟨-, h⟩ := (u16_error_iff _ _ _).1 e
    simp; omega
  | ok v =>
    obtain ⟨h, rfl⟩ := (u16_ok_iff _ _ _).1 e
    simp only [Except.ok.injEq, show 27 + 2 * j + 1 = 28 + 2 * j by omega]
    exact ⟨fun e => ⟨by omega, e.symm⟩, fun e => e.2.symm⟩

/-- A temperature that cannot be read is `Truncated`. -/
theorem temperature_error_iff (F : List Byte) (j : Nat) (c : Cause) :
    temperature F j = .error c ↔ c = .truncated ∧ payloadLength F < 23 + 2 * j + 2 := by
  unfold temperature offTemperatures
  cases e : u16 F (27 + 2 * j) with
  | error d =>
    obtain ⟨rfl, h⟩ := (u16_error_iff _ _ _).1 e
    simp only [Except.error.injEq]
    exact ⟨fun e => ⟨e.symm, by omega⟩, fun e => e.1.symm⟩
  | ok v =>
    obtain ⟨h, rfl⟩ := (u16_ok_iff _ _ _).1 e
    simp; omega

/-- The record of R104 for a frame, given its two sequences. -/
def summaryOf (F : List Byte) (balancing : List Bool) (temperatures : List Int) : PackSummary where
  totalVoltage_cV := be16 (byteAt F 4) (byteAt F 5)
  current_cA := s16 (be16 (byteAt F 6) (byteAt F 7))
  remainingCapacity_cAh := be16 (byteAt F 8) (byteAt F 9)
  nominalCapacity_cAh := be16 (byteAt F 10) (byteAt F 11)
  cycleCount := be16 (byteAt F 12) (byteAt F 13)
  productionDate := unpackDate (be16 (byteAt F 14) (byteAt F 15))
  cellCount := byteAt F 25
  balancing := balancing
  protectionStatus := be16 (byteAt F 20) (byteAt F 21)
  firmwareVersion_x10 := byteAt F 22
  stateOfCharge_pct := byteAt F 23
  chargeFet := (byteAt F 24).getLsbD 0
  dischargeFet := (byteAt F 24).getLsbD 1
  tempSensorCount := byteAt F 26
  temperatures_dC := temperatures

/-- Once the fixed part is inside the payload, the pack summary is its two sequences of reads (R104). -/
theorem packSummary_long {F : List Byte} (h : 23 ≤ payloadLength F) :
    packSummary F =
      match readEach (balanceBit F) 0 (byteAt F 25).toNat with
      | .error c => .error c
      | .ok bal =>
        match readEach (temperature F) 0 (byteAt F 26).toNat with
        | .error c => .error c
        | .ok tmp => .ok (.packSummary (summaryOf F bal tmp)) := by
  have h16 : ∀ k, 4 ≤ k → k + 2 ≤ 27 → u16 F k = .ok (be16 (byteAt F k) (byteAt F (k + 1))) :=
    fun k h₁ h₂ => (u16_ok_iff _ _ _).2 ⟨by omega, rfl⟩
  have h8 : ∀ k, 4 ≤ k → k + 1 ≤ 27 → u8 F k = .ok (byteAt F k) :=
    fun k h₁ h₂ => (u8_ok_iff _ _ _).2 ⟨by omega, rfl⟩
  unfold packSummary offTotalVoltage offCurrent offRemainingCapacity offNominalCapacity offCycleCount offProductionDate
    offProtectionStatus offFirmwareVersion offStateOfCharge offMosfet offCellCount offTempSensorCount
  rw [h16 4 (by omega) (by omega), h16 6 (by omega) (by omega), h16 8 (by omega) (by omega),
    h16 10 (by omega) (by omega), h16 12 (by omega) (by omega), h16 14 (by omega) (by omega),
    h16 20 (by omega) (by omega), h8 22 (by omega) (by omega), h8 23 (by omega) (by omega),
    h8 24 (by omega) (by omega), h8 25 (by omega) (by omega), h8 26 (by omega) (by omega)]
  simp only [bind, Except.bind, pure, Except.pure]
  cases readEach (balanceBit F) 0 (byteAt F 25).toNat with
  | error c => rfl
  | ok bal => cases readEach (temperature F) 0 (byteAt F 26).toNat <;> rfl

/-- A fixed part that does not fit is `Truncated` (R100 item 1). -/
theorem packSummary_short {F : List Byte} (h : payloadLength F < 23) : packSummary F = .error .truncated := by
  have e16 : ∀ k c, u16 F k = .error c → c = .truncated := fun k c h => ((u16_error_iff _ _ _).1 h).1
  have e8 : ∀ k c, u8 F k = .error c → c = .truncated := fun k c h => ((u8_error_iff _ _ _).1 h).1
  have last : u8 F offTempSensorCount = .error .truncated :=
    (u8_error_iff _ _ _).2 ⟨rfl, by unfold offTempSensorCount; omega⟩
  unfold packSummary
  simp only [bind, Except.bind, last]
  repeat' (first
    | rfl
    | (split
       · rename_i e
         first
           | rw [e16 _ _ e]
           | rw [e8 _ _ e]))

/-- The only error of the pack-summary routine is `Truncated` (R104). -/
theorem packSummary_error {F : List Byte} {c : Cause} (h : packSummary F = .error c) : c = .truncated := by
  by_cases hN : payloadLength F < 23
  · rw [packSummary_short hN] at h
    exact (Except.error.inj h).symm
  · rw [packSummary_long (by omega)] at h
    cases hb : readEach (balanceBit F) 0 (byteAt F 25).toNat with
    | error d =>
      obtain ⟨i, -, e⟩ := readEach_error hb
      rw [hb] at h
      rw [← Except.error.inj h]
      exact ((balanceBit_error_iff _ _ _).1 e).1
    | ok bal =>
      cases ht : readEach (temperature F) 0 (byteAt F 26).toNat with
      | error d =>
        obtain ⟨i, -, e⟩ := readEach_error ht
        rw [hb, ht] at h
        rw [← Except.error.inj h]
        exact ((temperature_error_iff _ _ _).1 e).1
      | ok tmp => simp [hb, ht] at h

/-- The cell-voltage routine always answers a record (R108). -/
theorem cellVoltages_eq (F : List Byte) :
    ∃ mv, cellVoltages F = .ok (.cellVoltages mv) ∧ mv.length = payloadLength F / 2 ∧
      ∀ i v, mv[i]? = some v → v = be16 (byteAt F (4 + 2 * i)) (byteAt F (5 + 2 * i)) := by
  have hr : ∀ i, i < payloadLength F / 2 → ∃ v, cellMillivolts F (0 + i) = .ok v := fun i hi =>
    ⟨_, (u16_ok_iff _ _ _).2 ⟨by omega, rfl⟩⟩
  obtain ⟨mv, hm⟩ := readEach_exists hr
  obtain ⟨hl, hb⟩ := (readEach_ok_iff _ _ _ _).1 hm
  refine ⟨mv, by simp [cellVoltages, hm, bind, Except.bind, pure, Except.pure], hl, fun i v hv => ?_⟩
  have := ((u16_ok_iff _ _ _).1 (hb i v hv)).2
  rw [this, Nat.zero_add, show 4 + 2 * i + 1 = 5 + 2 * i by omega]

/-- What running a routine behind the validation can answer (R78). -/
theorem runValidated_eq (routine : List Byte → Except Cause DecodedRecord) (F : List Byte) :
    runValidated routine F =
      if checksum F = received F then routine F else .error (.checksumMismatch (received F) (checksum F)) := by
  simp [runValidated, validate]

/-- The errors of `decode_frame` are the three decoder errors, none of which latches (R76, R51). -/
theorem decodeFrame_error {F : List Byte} {c : Cause} (h : decodeFrame F = .error c) :
    c.latches = false ∧
      (c = .truncated ∨ c = .unknownCommand ∨ c = .checksumMismatch (received F) (checksum F)) := by
  rw [decodeFrame, runValidated_eq] at h
  split at h
  · unfold extract at h
    split at h
    · rw [packSummary_error h]; exact ⟨rfl, .inl rfl⟩
    · split at h
      · obtain ⟨mv, e, -⟩ := cellVoltages_eq F
        rw [e] at h; cases h
      · rw [← Except.error.inj h]; exact ⟨rfl, .inr (.inl rfl)⟩
  · rw [← Except.error.inj h]; exact ⟨rfl, .inr (.inr rfl)⟩

/-- The errors of the two FRAME instructions. -/
theorem runValidated_error {routine : List Byte → Except Cause DecodedRecord} {F : List Byte} {c : Cause}
    (hr : ∀ d, routine F = .error d → d = .truncated) (h : runValidated routine F = .error c) :
    c.latches = false ∧ (c = .truncated ∨ c = .checksumMismatch (received F) (checksum F)) := by
  rw [runValidated_eq] at h
  split at h
  · rw [hr c h]; exact ⟨rfl, .inl rfl⟩
  · rw [← Except.error.inj h]; exact ⟨rfl, .inr rfl⟩

/-- A decode result of a non-latching kind changes the result and nothing else (R83). -/
theorem answerDecode_frame {s : State} {r : Except Cause DecodedRecord}
    (h : ∀ c, r = .error c → c.latches = false) : s.answerDecode r = { s with result := (s.answerDecode r).result } := by
  cases r with
  | ok record => rfl
  | error c =>
    have := h c rfl
    simp [State.answerDecode, State.raise, this]

/-- If `DECODE` answers a next state, no frame was ready, or the buffer's frame was decoded (R76). -/
theorem execDecode_cases {s t : State} (h : execDecode s = .next t) :
    (s.frameReady = false ∧ t = s.raise .noFrame) ∨
    (s.frameReady = true ∧ ∃ F, s.frame = .ok F ∧ wholeFrame F = true ∧ t = s.answerDecode (decodeFrame F)) := by
  unfold execDecode at h
  split at h
  · rename_i hr
    cases e : s.frame with
    | error f => rw [e] at h; cases h
    | ok F =>
      rw [e] at h
      simp only at h
      split at h
      · rename_i hw; exact .inr ⟨hr, F, rfl, hw, by cases h; rfl⟩
      · cases h
  · rename_i hr
    exact .inl ⟨by simpa using hr, by cases h; rfl⟩

/-- In a sound state with `frameReady` the buffer holds one whole frame (R15, R76). -/
theorem wholeFrame_of_ready {s : State} (h : Inv s) (hr : s.frameReady = true) :
    ∃ F, s.frame = .ok F ∧ wholeFrame F = true ∧ F.length = s.len ∧ ∀ k, F[k]? = s.acc.read k := by
  obtain ⟨F, hF, hl, hk⟩ := frame_of_inv h
  obtain ⟨-, n, hn, hlen⟩ := (frameReady_iff s).1 hr
  have h3 : F[3]? = some n := by rw [hk, h.declared n hn]
  have : payloadLength F = n.toNat := by
    simp [payloadLength, byteAt, List.getD_eq_getElem?_getD, h3]
  exact ⟨F, hF, (wholeFrame_iff F).2 ⟨by omega, by omega⟩, hl, hk⟩

end Sys2Proof.Machine
end

