-- ==== Sys2Proof/Laws/Step.lean ====
section
/-! SUPPORT. What one instruction and one step can do, and runs of appends (spec 00_scope.md R5). -/

namespace Sys2Proof.Machine

/-- A step that goes on was idle, or ran one instruction from the port. -/
theorem step_cases {s t : State} (h : step s = .next t) :
    (s.port = [] ∧ t = s) ∨
    (∃ c rest i, s.port = c :: rest ∧ decodePort c = .ok i ∧ exec i { s with port := rest } = .next t) := by
  unfold step fetch at h
  cases hp : s.port with
  | nil => rw [hp] at h; exact .inl ⟨rfl, by cases h; rfl⟩
  | cons c rest =>
    rw [hp] at h
    cases hd : decodePort c with
    | error r => simp [hd] at h
    | ok i => simp only [hd] at h; exact .inr ⟨c, rest, i, rfl, hd, h⟩

/-- A step whose port begins with an instruction runs it. -/
theorem step_of_port {s : State} {c : Code} {rest : List Code} {i : Instr} (hp : s.port = c :: rest)
    (hd : decodePort c = .ok i) : step s = exec i { s with port := rest } := by
  simp [step, fetch, hp, hd]

/-- The port takes operations and requests, never a response frame. -/
theorem decodePort_eq {c : Code} (h : ∀ F, c ≠ .frame F) :
    decodePort c = match decode c with
      | .ok i => .ok i
      | .error why => .error (.rejected why) := by
  cases c with
  | frame F => exact absurd rfl (h F)
  | op o l => rfl
  | request l => rfl

/-- One step of a run that goes on. -/
theorem run_next {k : Nat} {s t : State} (h : step s = .next t) : Host.Core.run core (k + 1) s = Host.Core.run core k t := by
  have e := Host.Core.run.eq_2 core s k
  rw [show core.step s = .next t from h] at e
  exact e

end Sys2Proof.Machine
end

