-- ==== Sys2Proof/Machine/Trace.lean ====
section
/-! DEFINITION. The pseudo-operations of the trace notation, each expanding to operations (spec 30_encoding.md R54). -/

namespace Sys2Proof.Machine

/-- The source's `reset()` and `resetForNewRequest()` (R54). -/
def resetForNewRequest : Instr := .reset
/-- The source's `append(c)` and `onChunk(c)` (R54). -/
def onChunk (chunk : List Byte) : Instr := .append chunk
/-- The source's `decodeCompletedFrame(acc)` (R54). -/
def decodeCompletedFrame : Instr := .decode

/-- Split `bytes` into pieces of `k` bytes, the last one shorter if need be; `fuel` pieces at most. -/
def pieces (k : Nat) : Nat → List Byte → List (List Byte)
  | 0, _ => []
  | fuel + 1, bytes =>
    match bytes with
    | [] => []
    | b :: bs => (b :: bs).take k :: pieces k fuel ((b :: bs).drop k)

/-- `FEED b0 .. b(m-1) BY k` (R54), for `k ≥ 1`. -/
def feed (bytes : List Byte) (k : Nat) : List Instr := (pieces k bytes.length bytes).map Instr.append

/-- `POLL f` (R54), one poll cycle: `RESET`, the request (outside the engine), the chunks, `DECODE` (R127). -/
def poll (request : Instr) (bytes : List Byte) (k : Nat) : List Instr :=
  [.reset, request] ++ feed bytes k ++ [.decode]

/-- The collaborator issues operations: they stand on the port behind those issued before (R33). -/
def State.issue (s : State) (ops : List Instr) : State := { s with port := s.port ++ ops.map encode }

end Sys2Proof.Machine
end

