-- ==== Sys2Proof/Certificates/Slice0/Obligations.lean ====
section
/-! DEFINITION. The statements for the provers. R<n>, D<n>, U<n>, G<n> are the spec's, log <n> is notes/assumptions/<n>.md. -/

open Sys2Proof Sys2Proof.Machine

-- RESET

/-- R55: `RESET` is op code 0 without operand, completes in every state, clears length, knowledge of the length and latch, returns nothing, leaves phase
`IDLE`, is idempotent, and makes a later `DECODE` answer `NoFrame`. -/
def Obligations.ResetClearsTheEngineInEveryState : Prop :=
  encode .reset = .op 0 [] ∧ ∀ s : State, ∃ t, exec .reset s = .next t ∧
    t.len = 0 ∧ t.expKnown = false ∧ t.errorFlag = false ∧ t.result = .nothing ∧ t.phase = .idle ∧
    t.cap = s.cap ∧ t.port = s.port ∧
    exec .reset t = .next t ∧ exec .decode t = .next { t with result := .decode (.err .noFrame) }

/-- R126 with the spec's decision D17 and the model's choice that `RESET` forgets the bytes and the length (log 4, log 5):
from any state `RESET` gives the power-on state of that instance, with its port. -/
def Obligations.ResetGivesThePowerOnState : Prop :=
  ∀ s : State, exec .reset s = .next { State.reset with cap := s.cap, port := s.port }

/-- R21 with the spec's decision D17, and R6's default of `CAP`: the power-on values, seen through the status view (R18). -/
def Obligations.PowerOnStatusView : Prop :=
  State.reset.statusView = { len := 0, expKnown := false, expLen := none, errorFlag := false, frameReady := false } ∧
  State.reset.phase = .idle ∧ State.reset.cap = 100

-- APPEND

/-- R56: `APPEND` is op code 1 followed by the chunk; with a non-empty chunk it always completes, and its next state is that
of the seven steps, in their order. -/
def Obligations.AppendRunsItsSevenSteps : Prop :=
  ∀ (chunk : List Byte) (s : State), chunk ≠ [] →
    encode (.append chunk) = .op 1 chunk ∧ ∃ t, exec (.append chunk) s = .next t ∧
    (if s.errorFlag = true then t = { s with result := .append (.error .errorLatched) }
    else if s.len = 0 ∧ chunk[0]? ≠ some 0xDD then t = { s with result := .append (.error .malformedStart) }
    else if s.len ≤ 2 ∧ 2 < s.len + chunk.length ∧ chunk[2 - s.len]? ≠ some 0x00 then
      t = { s with errorFlag := true, result := .append (.error .bmsReportedFault) }
    else if s.len + chunk.length > s.cap then
      t = { s with errorFlag := true, result := .append (.error .bufferOverflow) }
    else
      t.len = s.len + chunk.length ∧ t.errorFlag = false ∧ t.cap = s.cap ∧ t.port = s.port ∧
      t.expectedLength = (if s.len ≤ 3 ∧ 3 < s.len + chunk.length then chunk[3 - s.len]? else s.expectedLength) ∧
      (∀ k, t.acc.read k =
        if s.len ≤ k ∧ k < s.len + chunk.length then chunk[k - s.len]? else s.acc.read k) ∧
      t.result = .append
        (if t.expectedLength.map (fun n => n.toNat + 7) = some t.len then .frameComplete else .continuing))

/-- R63, with the store of R62: a chunk that passes the four tests is stored byte by byte from `len` on, nothing else is stored, and the
outcome is the equality test made once, after the whole chunk. -/
def Obligations.AcceptedChunkIsStoredAndTestedOnce : Prop :=
  ∀ (chunk : List Byte) (s : State), chunk ≠ [] → s.errorFlag = false →
    (s.len = 0 → chunk[0]? = some 0xDD) →
    (s.len ≤ 2 → 2 < s.len + chunk.length → chunk[2 - s.len]? = some 0x00) →
    s.len + chunk.length ≤ s.cap →
    ∃ t, exec (.append chunk) s = .next t ∧ t.len = s.len + chunk.length ∧
      (∀ (j : Nat) (h : j < chunk.length), t.acc.read (s.len + j) = some chunk[j]) ∧
      (∀ k, k < s.len ∨ s.len + chunk.length ≤ k → t.acc.read k = s.acc.read k) ∧
      ((∃ n, t.expectedLength = some n ∧ t.len = n.toNat + 7) → t.result = .append .frameComplete) ∧
      (¬ (∃ n, t.expectedLength = some n ∧ t.len = n.toNat + 7) → t.result = .append .continuing) ∧
      t.errorFlag = false ∧ t.cap = s.cap ∧ t.port = s.port

/-- R110: `MalformedStart` drops the chunk whole, latches nothing, and the next `APPEND` acts as if it had not been: no
`RESET` is needed. -/
def Obligations.MalformedStartLeavesTheEngineReady : Prop :=
  ∀ (chunk : List Byte) (s : State), chunk ≠ [] → s.errorFlag = false → s.len = 0 → chunk[0]? ≠ some 0xDD →
    ∃ t, exec (.append chunk) s = .next t ∧ t = { s with result := .append (.error .malformedStart) } ∧
      ∀ next : List Byte, exec (.append next) t = exec (.append next) s

/-- R111: the chunk that carries a nonzero byte for frame index 2 is not stored and latches the engine; every later `APPEND`
is refused and no checksum is computed, until `RESET`. -/
def Obligations.BmsReportedFaultAbandonsTheFrame : Prop :=
  ∀ (chunk : List Byte) (s : State), s.errorFlag = false → (s.len = 0 → chunk[0]? = some 0xDD) →
    s.len ≤ 2 → 2 < s.len + chunk.length → chunk[2 - s.len]? ≠ some 0x00 →
    ∃ t, exec (.append chunk) s = .next t ∧
      t = { s with errorFlag := true, result := .append (.error .bmsReportedFault) } ∧
      (∀ next : List Byte, next ≠ [] →
        exec (.append next) t = .next { t with result := .append (.error .errorLatched) }) ∧
      exec .decode t = .next { t with result := .decode (.err .noFrame) } ∧
      (∃ u, exec .reset t = .next u ∧ u.errorFlag = false)

/-- R112: a chunk that would exceed the capacity is not stored and latches the engine; the bytes stored before stay but can
no longer be decoded, and every `APPEND` is refused until `RESET`. -/
def Obligations.BufferOverflowAbandonsTheFrame : Prop :=
  ∀ (chunk : List Byte) (s : State), chunk ≠ [] → s.errorFlag = false → (s.len = 0 → chunk[0]? = some 0xDD) →
    (s.len ≤ 2 → 2 < s.len + chunk.length → chunk[2 - s.len]? = some 0x00) →
    s.len + chunk.length > s.cap →
    ∃ t, exec (.append chunk) s = .next t ∧
      t = { s with errorFlag := true, result := .append (.error .bufferOverflow) } ∧
      t.frameReady = false ∧
      (∀ next : List Byte, next ≠ [] →
        exec (.append next) t = .next { t with result := .append (.error .errorLatched) }) ∧
      exec .decode t = .next { t with result := .decode (.err .noFrame) } ∧
      (∃ u, exec .reset t = .next u ∧ u.errorFlag = false)

/-- R65 (the spec's decision D7, log 14) and R15 item 7: an `APPEND` that ends in an error changes no engine state but
`errorFlag`, which it sets for the two latching causes only; a reported fault leaves at most two bytes stored. -/
def Obligations.ErroringAppendStoresNothing : Prop :=
  ∀ (chunk : List Byte) (s t : State) (c : Cause), exec (.append chunk) s = .next t →
    t.result = .append (.error c) →
    t.acc = s.acc ∧ t.len = s.len ∧ t.expectedLength = s.expectedLength ∧ t.cap = s.cap ∧ t.port = s.port ∧
    (t.errorFlag = true ↔ s.errorFlag = true ∨ c = .bmsReportedFault ∨ c = .bufferOverflow) ∧
    (c = .bmsReportedFault → t.len ≤ 2)

/-- R66 (derived by the spec from R56): the phase table of `APPEND`, row by row, in states that meet R15. -/
def Obligations.AppendPhaseTransitions : Prop :=
  ∀ (chunk : List Byte) (s : State), Inv s → chunk ≠ [] → ∃ t, exec (.append chunk) s = .next t ∧
    (if s.phase = .error then t.phase = .error ∧ t.result = .append (.error .errorLatched)
    else if s.phase = .idle ∧ chunk[0]? ≠ some 0xDD then
      t.phase = .idle ∧ t.result = .append (.error .malformedStart)
    else if (s.phase = .idle ∨ s.phase = .header) ∧ 2 < s.len + chunk.length ∧ s.len ≤ 2 ∧
        chunk[2 - s.len]? ≠ some 0x00 then
      t.phase = .error ∧ t.result = .append (.error .bmsReportedFault)
    else if s.len + chunk.length > s.cap then t.phase = .error ∧ t.result = .append (.error .bufferOverflow)
    else if s.phase = .complete ∨ s.phase = .overrun then t.phase = .overrun ∧ t.result = .append .continuing
    else if s.len + chunk.length ≤ 3 then t.phase = .header ∧ t.result = .append .continuing
    else ∃ n : Byte, (if s.phase = .body then s.expectedLength else chunk[3 - s.len]?) = some n ∧
      (if s.len + chunk.length < n.toNat + 7 then t.phase = .body ∧ t.result = .append .continuing
      else if s.len + chunk.length = n.toNat + 7 then t.phase = .complete ∧ t.result = .append .frameComplete
      else t.phase = .overrun ∧ t.result = .append .continuing))

/-- R131 (derived by the spec from R60 and R63): no `APPEND` reports `FrameComplete` for a frame that declares more payload
than the capacity holds, in any engine whose length byte is the declared one. -/
def Obligations.FrameThatCannotFitNeverCompletes : Prop :=
  ∀ (chunk : List Byte) (s t : State) (n : Byte), exec (.append chunk) s = .next t →
    t.expectedLength = some n → s.cap < n.toNat + 7 → t.result ≠ .append .frameComplete

/-- R67 (derived by the spec from R56 to R63), chunking invariance: a well-formed frame, split in any way into non-empty
chunks, gives `Continuing` for every chunk but the last and `FrameComplete` for the last, and the buffer then holds exactly
the frame, with its length byte known and no error. -/
def Obligations.ChunkingInvariance : Prop :=
  ∀ (F : List Byte) (chunks : List (List Byte)) (s : State) (N : Byte) (rest : List Code),
    s.acc = [] → s.len = 0 → s.expectedLength = none → s.errorFlag = false →
    F[0]? = some 0xDD → F[2]? = some 0x00 → F[3]? = some N → F.length = N.toNat + 7 → F.length ≤ s.cap →
    chunks.flatten = F → (∀ c ∈ chunks, c ≠ []) →
    s.port = chunks.map (fun c => encode (.append c)) ++ rest →
    (∀ j, 0 < j → j < chunks.length →
      ∃ t : State, Host.Core.run core j s = .next t ∧ t.result = .append .continuing) ∧
    ∃ t : State, Host.Core.run core chunks.length s = .next t ∧ t.result = .append .frameComplete ∧
      t.frame = .ok F ∧ t.len = F.length ∧ t.expectedLength = some N ∧ t.errorFlag = false ∧
      t.cap = s.cap ∧ t.port = rest

/-- R128 and R64 (the spec's decision D29): appends that follow a completed or overshot frame without a `RESET` never report
`FrameComplete` again, however many they are, and once they exceed the capacity the engine is latched. -/
def Obligations.AppendsWithoutResetNeverCompleteAgain : Prop :=
  ∀ (chunks : List (List Byte)) (s : State) (rest : List Code), Inv s →
    (s.phase = .complete ∨ s.phase = .overrun) → chunks ≠ [] → (∀ c ∈ chunks, c ≠ []) →
    s.port = chunks.map (fun c => encode (.append c)) ++ rest →
    ∃ t : State, Host.Core.run core chunks.length s = .next t ∧ t.result ≠ .append .frameComplete ∧
      (t.phase = .overrun ∨ t.phase = .error) ∧
      (t.phase = .error ↔ s.len + chunks.flatten.length > s.cap)

-- The latch, the position, the store: whole-machine rules

/-- R14: `errorFlag` is set by exactly the two causes, cleared by `RESET` and power-on alone, and read by `APPEND` and
`DECODE`. -/
def Obligations.LatchIsSetByTwoCausesAndClearedByReset : Prop :=
  State.reset.errorFlag = false ∧
  (∀ (i : Instr) (s t : State), exec i s = .next t →
    (t.errorFlag = true ↔ (s.errorFlag = true ∧ i ≠ .reset) ∨
      (∃ c, i = .append c ∧ (t.result = .append (.error .bmsReportedFault) ∨
        t.result = .append (.error .bufferOverflow))))) ∧
  (∀ (chunk : List Byte) (s : State), s.errorFlag = true → chunk ≠ [] →
    exec (.append chunk) s = .next { s with result := .append (.error .errorLatched) }) ∧
  (∀ s : State, s.errorFlag = true → exec .decode s = .next { s with result := .decode (.err .noFrame) })

/-- R12: `len` changes in two ways only, never passes `CAP`, and an append that would carry it past `CAP` is refused whole. -/
def Obligations.LenChangesByAcceptedAppendAndResetOnly : Prop :=
  State.reset.len ≤ State.reset.cap ∧
  ∀ (i : Instr) (s t : State), exec i s = .next t →
    (∀ c, i = .append c → t.result = .append .continuing ∨ t.result = .append .frameComplete →
      t.len = s.len + c.length) ∧
    (∀ c e, i = .append c → t.result = .append (.error e) → t.len = s.len) ∧
    (∀ c, i = .append c → s.cap < s.len + c.length → ∃ e, t.result = .append (.error e)) ∧
    (i = .reset → t.len = 0) ∧
    ((∀ c, i ≠ .append c) → i ≠ .reset → t.len = s.len) ∧
    (s.len ≤ s.cap → t.len ≤ t.cap)

/-- R26: the only write is the append at `len`; no index below `len` and none at or above `CAP` is ever written, until
`RESET`. -/
def Obligations.OnlyAppendWritesAndOnlyAtLen : Prop :=
  ∀ (i : Instr) (s t : State), exec i s = .next t → i ≠ .reset →
    ((∀ c, i ≠ .append c) → t.acc = s.acc) ∧
    (∀ k, k < s.len ∨ s.cap ≤ k ∨ t.len ≤ k → t.acc.read k = s.acc.read k) ∧
    (∀ chunk, i = .append chunk → t.result = .append .continuing ∨ t.result = .append .frameComplete →
      t.len = s.len + chunk.length ∧ ∀ (j : Nat) (h : j < chunk.length), t.acc.read (s.len + j) = some chunk[j])

/-- The frame of every instruction (R19, R83, R120; R53 and log 8 for the requests): no instruction changes the capacity or
what is still on the port; `DECODE` and the two FRAME instructions change nothing but the result; a request changes nothing. -/
def Obligations.InstructionFrames : Prop :=
  ∀ (i : Instr) (s t : State), exec i s = .next t →
    t.cap = s.cap ∧ t.port = s.port ∧
    ((i = .decode ∨ (∃ f, i = .packSummary f) ∨ (∃ f, i = .cellVoltages f)) → t = { s with result := t.result }) ∧
    ((i = .reqPackSummary ∨ i = .reqCellVoltages) → t = s)

/-- R51 and R50 (the spec's decision D4): which instruction can hand out which result and cause; `CELL_VOLTAGES` is never
`Truncated` (R108). -/
def Obligations.EachResultBelongsToItsOperation : Prop :=
  ∀ (i : Instr) (s t : State), exec i s = .next t →
    match i with
    | .reset => t.result = .nothing
    | .append _ => t.result = .append .continuing ∨ t.result = .append .frameComplete ∨
        ∃ c ∈ [Cause.malformedStart, .bmsReportedFault, .bufferOverflow, .errorLatched], t.result = .append (.error c)
    | .decode => (∃ r, t.result = .decode (.ok r)) ∨ t.result = .decode (.err .noFrame) ∨
        t.result = .decode (.err .unknownCommand) ∨ t.result = .decode (.err .truncated) ∨
        ∃ a b, a ≠ b ∧ t.result = .decode (.err (.checksumMismatch a b))
    | .packSummary _ => (∃ p, t.result = .decode (.ok (.packSummary p))) ∨ t.result = .decode (.err .truncated) ∨
        ∃ a b, a ≠ b ∧ t.result = .decode (.err (.checksumMismatch a b))
    | .cellVoltages _ => (∃ v, t.result = .decode (.ok (.cellVoltages v))) ∨
        ∃ a b, a ≠ b ∧ t.result = .decode (.err (.checksumMismatch a b))
    | .reqPackSummary => t.result = s.result
    | .reqCellVoltages => t.result = s.result

/-- R51 and R50 (the spec's decision D4): the number of every cause and of every outcome, and which causes latch. -/
def Obligations.CauseAndOutcomeCodes : Prop :=
  (∀ a b : Half, [Cause.malformedStart, .bmsReportedFault, .bufferOverflow, .checksumMismatch a b, .unknownCommand, .truncated,
    .errorLatched, .noFrame].map Cause.code = [1, 2, 3, 4, 5, 6, 7, 8]) ∧
  AppendOutcome.code .continuing = 0 ∧ AppendOutcome.code .frameComplete = 1 ∧
  (∀ c : Cause, AppendOutcome.code (.error c) = 2) ∧
  (∀ c : Cause, c.latches = true ↔ c = .bmsReportedFault ∨ c = .bufferOverflow) ∧
  (∀ r : Result, r.causeCode = 0 ↔ r.cause = none) ∧
  (∀ (r : Result) (c : Cause), r.cause = some c → r.causeCode = c.code) ∧
  (∀ r : Result, r.causeCode.toNat ≤ 8) ∧ (∀ o : AppendOutcome, o.code.toNat ≤ 2)

/-- R19 and R20: what an operation does depends neither on the result of an earlier one nor on the operations still to come. -/
def Obligations.NoHiddenState : Prop :=
  (∀ (i : Instr) (s : State) (r : Result), i ≠ .reqPackSummary → i ≠ .reqCellVoltages →
    exec i { s with result := r } = exec i s) ∧
  (∀ (i : Instr) (s : State) (p : List Code), exec i { s with port := p } =
    match exec i s with
    | .next t => .next { t with port := p }
    | .fault f => .fault f
    | .refused r => .refused r)

-- The checksum

/-- R45 (`be16`): a 16-bit field is 256 times its first byte plus its second, unscaled; an 8-bit field is the byte itself. -/
def Obligations.PairsAreBigEndian : Prop :=
  ∀ (F : List Byte) (k : Nat),
    (be16 (byteAt F k) (byteAt F (k + 1))).toNat = (byteAt F k).toNat * 256 + (byteAt F (k + 1)).toNat ∧
    (∀ v, u16 F k = .ok v → v.toNat = (byteAt F k).toNat * 256 + (byteAt F (k + 1)).toNat ∧ v.toNat ≤ 65535) ∧
    (∀ b, u8 F k = .ok b → b = byteAt F k)

/-- R70: the checksum of a frame is 0x10000 less the sum of the bytes at frame indices 3 to 3+N, modulo 0x10000. -/
def Obligations.ChecksumIsTheNegatedByteSum : Prop :=
  ∀ F : List Byte, wholeFrame F = true →
    (checksum F).toNat =
      (0x10000 - ((List.range (payloadLength F + 1)).map (fun k => (byteAt F (3 + k)).toNat)).sum) % 0x10000

/-- R73 and R74's first sentence: `received` is the big-endian pair behind the payload, and `validate` is the equality. -/
def Obligations.ValidateComparesWithTheTransmittedPair : Prop :=
  ∀ F : List Byte,
    (received F).toNat = (byteAt F (4 + payloadLength F)).toNat * 256 + (byteAt F (5 + payloadLength F)).toNat ∧
    (validate F = true ↔ checksum F = received F)

/-- R72 (derived by the spec from R70): the sum never exceeds 65280, sum and checksum cancel modulo 0x10000, the checksum is 0
exactly for an empty payload, and 1 to 255 are never produced. -/
def Obligations.ChecksumRange : Prop :=
  ∀ F : List Byte, wholeFrame F = true →
    coveredSum F ≤ 65280 ∧ ((checksum F).toNat + coveredSum F) % 0x10000 = 0 ∧
    ((checksum F).toNat = 0 ↔ payloadLength F = 0) ∧ ((checksum F).toNat = 0 ∨ 256 ≤ (checksum F).toNat)

/-- R71: the sum covers exactly the frame indices 3 to 3+N: it is the length byte plus the payload bytes, no change elsewhere
moves it, every change of one payload byte does; the command code and the end marker are outside the validation. -/
def Obligations.ChecksumCoverage : Prop :=
  ∀ (F : List Byte) (k : Nat) (b : Byte), wholeFrame F = true →
    (checksum F).toNat = (0x10000 - ((byteAt F 3).toNat + (((F.drop 4).take (payloadLength F)).map BitVec.toNat).sum)) % 0x10000 ∧
    (k < 3 ∨ 4 + payloadLength F ≤ k → checksum (F.set k b) = checksum F) ∧
    (k < 3 ∨ k = 6 + payloadLength F → validate (F.set k b) = validate F) ∧
    (4 ≤ k → k < 4 + payloadLength F → b ≠ byteAt F k → checksum (F.set k b) ≠ checksum F)

/-- R74 (detection, derived by the spec from R70): `validate` detects every change of one payload byte, and does not detect
one byte up and another down by one. -/
def Obligations.ValidateDetectsOneByteNotTwo : Prop :=
  (∀ (F : List Byte) (k : Nat) (b : Byte), wholeFrame F = true → validate F = true →
    4 ≤ k → k < 4 + payloadLength F → b ≠ byteAt F k → validate (F.set k b) = false) ∧
  (∀ (F : List Byte) (j k : Nat), wholeFrame F = true → 4 ≤ j → j < 4 + payloadLength F →
    4 ≤ k → k < 4 + payloadLength F → j ≠ k → (byteAt F j).toNat < 255 → 0 < (byteAt F k).toNat →
    validate ((F.set j (byteAt F j + 1)).set k (byteAt F k - 1)) = validate F)

-- DECODE

/-- R76, in states that meet R15: `DECODE` is op code 2 without operand and completes; not ready is `NoFrame`; else the buffer holds a frame of `F[3] + 7`
bytes, a wrong checksum is reported with both values, and the command byte selects the routine. -/
def Obligations.DecodeFollowsItsOrder : Prop :=
  encode .decode = .op 2 [] ∧ ∀ s : State, Inv s →
    if s.frameReady = false then exec .decode s = .next { s with result := .decode (.err .noFrame) }
    else ∃ F, s.frame = .ok F ∧ F.length = (byteAt F 3).toNat + 7 ∧ F.length = s.len ∧
      exec .decode s = .next { s with result := .decode (
        if checksum F ≠ received F then .err (.checksumMismatch (received F) (checksum F))
        else if byteAt F 1 = 0x03 then
          decodeResult (packSummary F)
        else if byteAt F 1 = 0x04 then
          decodeResult (cellVoltages F)
        else .err .unknownCommand) }

/-- R83: `DECODE` writes no element of the engine, and a second `DECODE` gives the same result. -/
def Obligations.DecodeIsReadOnlyAndRepeatable : Prop :=
  ∀ s t : State, exec .decode s = .next t → t = { s with result := t.result } ∧ exec .decode t = .next t

/-- R77 (the spec's decision D10) with R16 (derived by the spec) and R18 (its decision D25): in every state a frame is ready
exactly when no error is latched, the length is known and `len = expLen + 7`; the status view shows these values; and without
a ready frame `DECODE` answers `NoFrame` and changes nothing else. -/
def Obligations.DecodeWithoutFrameIsNoFrame : Prop :=
  ∀ s : State,
    (s.frameReady = true ↔
      s.errorFlag = false ∧ ∃ n : Byte, s.expectedLength = some n ∧ s.len = n.toNat + 7) ∧
    (s.expKnown = true ↔ ∃ n : Byte, s.expectedLength = some n) ∧
    s.statusView =
      { len := s.len, expKnown := s.expKnown, expLen := s.expectedLength, errorFlag := s.errorFlag,
        frameReady := s.frameReady } ∧
    (s.frameReady = false → exec .decode s = .next { s with result := .decode (.err .noFrame) })

/-- R113: a checksum mismatch carries the received and the computed value, sets no flag and keeps the frame. -/
def Obligations.ChecksumMismatchReportsBothValues : Prop :=
  ∀ (s : State) (F : List Byte), s.frameReady = true → s.frame = .ok F → wholeFrame F = true →
    checksum F ≠ received F →
    exec .decode s = .next { s with result := .decode (.err (.checksumMismatch
      (be16 (byteAt F (4 + payloadLength F)) (byteAt F (5 + payloadLength F))) (checksum F))) }

/-- R114: a valid frame whose command byte is neither 0x03 nor 0x04 is `UnknownCommand` for `DECODE`; `APPEND` never raises it:
a frame with any command byte is reassembled. -/
def Obligations.UnknownCommandComesFromDecodeAlone : Prop :=
  (∀ (s : State) (F : List Byte), s.frameReady = true → s.frame = .ok F → wholeFrame F = true →
    checksum F = received F → byteAt F 1 ≠ 0x03 → byteAt F 1 ≠ 0x04 →
    exec .decode s = .next { s with result := .decode (.err .unknownCommand) }) ∧
  (∀ (chunk : List Byte) (s t : State), exec (.append chunk) s = .next t →
    t.result ≠ .append (.error .unknownCommand) ∧ t.result ≠ .decode (.err .unknownCommand)) ∧
  (∀ (F : List Byte) (s : State), wholeFrame F = true → byteAt F 0 = startMarker → byteAt F 2 = statusOk →
    F.length ≤ s.cap → s.len = 0 → s.errorFlag = false →
    ∃ t, exec (.append F) s = .next t ∧ t.result = .append .frameComplete)

/-- R79, as the opcode table's two FRAME rows read it (30_encoding.md section 8, log 9): when the completed frame in the
buffer decodes to a FRAME instruction, `DECODE` does what that instruction does. -/
def Obligations.DecodeRunsTheFrameInTheBuffer : Prop :=
  ∀ (s : State) (F : List Byte) (i : Instr), s.frameReady = true → s.frame = .ok F →
    Sys2Proof.decode (.frame F) = .ok i → exec .decode s = exec i s

-- PACK_SUMMARY and CELL_VOLTAGES

/-- R78 (the spec's decisions D11, D13): a FRAME instruction whose checksum is wrong answers `ChecksumMismatch` with both
values and nothing else, whatever its payload. -/
def Obligations.FrameInstructionsValidateFirst : Prop :=
  ∀ (f : Frame) (s : State), f.wf = true →
    (f.checksum ≠ checksum (frameBytes cmdPack f) → exec (.packSummary f) s = .next { s with
      result := .decode (.err (.checksumMismatch f.checksum (checksum (frameBytes cmdPack f)))) }) ∧
    (f.checksum ≠ checksum (frameBytes cmdCells f) → exec (.cellVoltages f) s = .next { s with
      result := .decode (.err (.checksumMismatch f.checksum (checksum (frameBytes cmdCells f)))) })

/-- R105 and R106: a checksum-valid cell-voltage frame gives `N / 2` readings, the big-endian pairs of the payload in order. -/
def Obligations.CellVoltagesAreThePayloadPairs : Prop :=
  ∀ (f : Frame) (s : State), f.wf = true → f.checksum = checksum (frameBytes cmdCells f) →
    ∃ mv : List Half,
      exec (.cellVoltages f) s = .next { s with result := .decode (.ok (.cellVoltages mv)) } ∧
      mv.length = f.payload.length / 2 ∧ mv.length ≤ 127 ∧
      ∀ (i : Nat) (a b : Byte), f.payload[2 * i]? = some a → f.payload[2 * i + 1]? = some b →
        mv[i]? = some (BitVec.ofNat 16 (a.toNat * 256 + b.toNat))

/-- R104 with the spec's own general knowledge of offsets and widths (G1 to G3, log 10) and the unverified bit order of R92
(log 11): a checksum-valid pack-summary frame that is not truncated gives a record whose every field is the payload's. `P k`
is the byte at payload index `k`. -/
def Obligations.PackSummaryFieldsArePayloadFields : Prop :=
  ∀ (f : Frame) (s : State), f.wf = true → f.checksum = checksum (frameBytes cmdPack f) →
    let P := fun k => f.payload.getD k 0
    23 + 2 * (P 22).toNat ≤ f.payload.length →
    ((P 21).toNat = 0 ∨ 12 + ((P 21).toNat - 1) / 8 < f.payload.length) →
    ∃ p : PackSummary,
      exec (.packSummary f) s = .next { s with result := .decode (.ok (.packSummary p)) } ∧
      p.totalVoltage_cV = be16 (P 0) (P 1) ∧ p.current_cA = (be16 (P 2) (P 3)).toInt ∧
      p.remainingCapacity_cAh = be16 (P 4) (P 5) ∧ p.nominalCapacity_cAh = be16 (P 6) (P 7) ∧
      p.cycleCount = be16 (P 8) (P 9) ∧ p.productionDate = unpackDate (be16 (P 10) (P 11)) ∧
      p.protectionStatus = be16 (P 16) (P 17) ∧ p.firmwareVersion_x10 = P 18 ∧ p.stateOfCharge_pct = P 19 ∧
      p.chargeFet = (P 20).getLsbD 0 ∧ p.dischargeFet = (P 20).getLsbD 1 ∧
      p.cellCount = P 21 ∧ p.tempSensorCount = P 22 ∧
      p.balancing.length = (P 21).toNat ∧
      (∀ i, i < (P 21).toNat → p.balancing[i]? = some ((P (12 + i / 8)).getLsbD (7 - i % 8))) ∧
      p.temperatures_dC.length = (P 22).toNat ∧
      (∀ j, j < (P 22).toNat →
        p.temperatures_dC[j]? = some (((be16 (P (23 + 2 * j)) (P (24 + 2 * j))).toNat : Int) - 2731))

/-- R100 (derived by the spec from R85 to R99 and R80, with G1 to G3, log 10): a checksum-valid pack-summary frame is
`Truncated` exactly under the three conditions, and answers a record otherwise. -/
def Obligations.PackSummaryIsTruncatedExactlyWhenItDoesNotFit : Prop :=
  ∀ (f : Frame) (s : State), f.wf = true → f.checksum = checksum (frameBytes cmdPack f) →
    let N := f.payload.length
    let cellCount := (f.payload.getD 21 0).toNat
    let tempCount := (f.payload.getD 22 0).toNat
    if N < 23 ∨ (1 ≤ cellCount ∧ N ≤ 12 + (cellCount - 1) / 8) ∨ 23 + 2 * tempCount > N then
      exec (.packSummary f) s = .next { s with result := .decode (.err .truncated) }
    else ∃ p, exec (.packSummary f) s = .next { s with result := .decode (.ok (.packSummary p)) }

/-- R47: the packed date's sub-fields, extracted as they are, and their ranges. -/
def Obligations.PackedDateSubFields : Prop :=
  ∀ d : Half, (unpackDate d).raw = d ∧
    (unpackDate d).year = 2000 + d.toNat / 512 ∧ (unpackDate d).month = d.toNat / 32 % 16 ∧
    (unpackDate d).day = d.toNat % 32 ∧
    (unpackDate d).year ≤ 2127 ∧ (unpackDate d).month ≤ 15 ∧ (unpackDate d).day ≤ 31

/-- The readings of R9 and R48 (the unwrapped temperature is the spec's decision D15): `s16` is two's complement, and a
temperature is the raw value less 2731, from -2731 to 62804, not wrapped. -/
def Obligations.SignedReadings : Prop :=
  ∀ v : Half,
    s16 v = (if v.toNat ≥ 32768 then (v.toNat : Int) - 65536 else v.toNat) ∧
    deciCelsius v = (v.toNat : Int) - 2731 ∧ -2731 ≤ deciCelsius v ∧ deciCelsius v ≤ 62804

-- The request frames

/-- R53, and the model's reading of "neither produces nor consumes" as no effect on the engine (DEDUCED, log 8): the two
requests complete with the state unchanged; their bytes carry `0x10000 - (F[2] + F[3])`; the response rule computes 0 for
them; fed to `APPEND` in an unlatched empty engine either raises `BmsReportedFault`. -/
def Obligations.RequestFramesPassTheEngineBy : Prop :=
  (∀ s : State, exec .reqPackSummary s = .next s ∧ exec .reqCellVoltages s = .next s) ∧
  (∀ bytes ∈ [reqPackBytes, reqCellsBytes],
    (received bytes).toNat = 0x10000 - ((byteAt bytes 2).toNat + (byteAt bytes 3).toNat) ∧
    checksum bytes = 0 ∧ validate bytes = false ∧
    ∀ s : State, s.errorFlag = false → s.len = 0 →
      exec (.append bytes) s =
        .next { s with errorFlag := true, result := .append (.error .bmsReportedFault) })

-- The step

/-- The step runs what the port holds (R5, R30; the port is the model's, log 2): when the oldest entry decodes to an operation
or a request, the step is exactly that instruction, with the entry taken off the port. -/
def Obligations.StepRunsTheIssuedInstruction : Prop :=
  ∀ (s : State) (c : Code) (rest : List Code) (i : Instr), s.port = c :: rest → (∀ F, c ≠ .frame F) →
    Sys2Proof.decode c = .ok i → step s = exec i { s with port := rest }

/-- The step reaches the FRAME instructions through `DECODE` (R79, log 9): when `DECODE` is issued and the completed frame in
the buffer decodes to a FRAME instruction, the step is exactly that instruction. -/
def Obligations.StepRunsTheFrameThroughDecode : Prop :=
  ∀ (s : State) (rest : List Code) (F : List Byte) (i : Instr), s.port = encode .decode :: rest →
    s.frameReady = true → s.frame = .ok F → Sys2Proof.decode (.frame F) = .ok i →
    step s = exec i { s with port := rest }

/-- R124 and R5 as the model reads them (log 6): with nothing issued the engine is idle and keeps its state. -/
def Obligations.IdleEngineKeepsItsState : Prop :=
  ∀ s : State, s.port = [] → step s = .next s

/-- R52, U6 and U7 with the model's refusals (log 7, log 9): a reserved op code, an empty chunk, operand bytes behind `RESET` or
`DECODE`, request bytes that are neither request and a response frame on the port are refused by name, and so are an `APPEND`
term without bytes and a FRAME term with more than 255 payload bytes. -/
def Obligations.WhatIsNoOperationIsRefused : Prop :=
  ∀ (s : State) (rest : List Code),
    (∀ (op : BitVec 3) (operand : List Byte), 3 ≤ op.toNat → s.port = .op op operand :: rest →
      step s = .refused (.rejected .reservedOpCode)) ∧
    (s.port = .op 1 [] :: rest → step s = .refused (.rejected .emptyChunk)) ∧
    (∀ (op : BitVec 3) (operand : List Byte), op = 0 ∨ op = 2 → operand ≠ [] → s.port = .op op operand :: rest →
      step s = .refused (.rejected .strayOperand)) ∧
    (∀ bytes : List Byte, bytes ≠ reqPackBytes → bytes ≠ reqCellsBytes → s.port = .request bytes :: rest →
      step s = .refused (.rejected .notARequest)) ∧
    (∀ F, s.port = .frame F :: rest → step s = .refused .frameOnPort) ∧
    exec (.append []) s = .refused .emptyChunk ∧
    (∀ f : Frame, 255 < f.payload.length →
      exec (.packSummary f) s = .refused .payloadTooLong ∧ exec (.cellVoltages f) s = .refused .payloadTooLong)

/-- R15 (derived by the spec from R55 to R65), as an invariant over ALL states that meet it: every step that goes on keeps
items 1 to 5, the storage of exactly the indices below `len`, and R6's bound. -/
def Obligations.EveryStepKeepsTheInvariant : Prop :=
  ∀ s t : State, Inv s → step s = .next t → Inv t

/-- R21 with R15: the power-on state meets the invariant, and its memory is canonical. -/
def Obligations.ResetMeetsTheInvariant : Prop := Inv State.reset ∧ State.reset.acc.wf = true

/-- R5 and R120 (errors are results): from a state that meets R15, no step faults, and a step goes on whenever what is next on
the port is an operation or a request, or nothing is; what stands behind it does not matter. -/
def Obligations.SoundStatesNeverFaultAndGoOn : Prop :=
  ∀ s : State, Inv s → (∀ f, step s ≠ .fault f) ∧ (NextLegal s → StepCompletes s)

/-- The memory keeps its canonical form in every step from any state that has it, and the capacity is fixed (R6, R25, log 1). -/
def Obligations.MemoryStaysCanonicalAndCapacityFixed : Prop :=
  ∀ s t : State, step s = .next t → (s.acc.wf = true → t.acc.wf = true) ∧ t.cap = s.cap

/-- R138 and R127 (derived by the spec): one poll cycle from ANY state, latched and mid-frame states included. `RESET`, a
request, a whole frame in any split that fits, `DECODE`: the result is `decode_frame` of exactly those bytes, and the buffer
still holds them. -/
def Obligations.PollCycleDecodesTheFrameDelivered : Prop :=
  ∀ (F : List Byte) (chunks : List (List Byte)) (s : State) (N : Byte) (request : Instr) (rest : List Code),
    (request = .reqPackSummary ∨ request = .reqCellVoltages) →
    F[0]? = some 0xDD → F[2]? = some 0x00 → F[3]? = some N → F.length = N.toNat + 7 → F.length ≤ s.cap →
    chunks.flatten = F → (∀ c ∈ chunks, c ≠ []) →
    s.port = encode .reset :: encode request ::
      (chunks.map (fun c => encode (.append c)) ++ encode .decode :: rest) →
    ∃ t : State, Host.Core.run core (chunks.length + 3) s = .next t ∧
      t.result = .decode (decodeResult (decodeFrame F)) ∧
      t.frame = .ok F ∧ t.len = F.length ∧ t.expectedLength = some N ∧ t.errorFlag = false ∧
      t.cap = s.cap ∧ t.port = rest

-- Encoding

/-- Decoding the encoding of a well-formed instruction gives it back, with every operand (R37, R49, R53, R54). -/
def Obligations.DecodeOfEncodeIsTheInstruction : Prop :=
  ∀ i : Instr, i.wf = true → Sys2Proof.decode (encode i) = .ok i

/-- Each encoding has one meaning: what decodes to an instruction is that instruction's encoding (R37, R49, R52, R53). -/
def Obligations.EncodeOfDecodeIsTheEncoding : Prop :=
  ∀ (c : Code) (i : Instr), Sys2Proof.decode c = .ok i → encode i = c

/-- The words of the opcode table, written out from R49, R53 and 30_encoding.md section 8. -/
def Obligations.TableWordsDecodeToTheirRows : Prop :=
  decodeTableWord 8 0 = some .reset ∧ decodeTableWord 8 2 = some .decode ∧
  decodeTableWord 8 1 = some (.append [0x00]) ∧ decodeTableWord 8 3 = none ∧ decodeTableWord 8 7 = none ∧
  decodeTableWord 32 0xDD030001 = some (.packSummary { payload := [0], checksum := 0, endMarker := 0 }) ∧
  decodeTableWord 32 0xDD040000 = some (.cellVoltages { payload := [], checksum := 0, endMarker := 0 }) ∧
  decodeTableWord 32 0xDD050000 = none ∧
  decodeTableWord 56 0xDDA50300FFFD77 = some .reqPackSummary ∧
  decodeTableWord 56 0xDDA50400FFFC77 = some .reqCellVoltages

/-- R54 (the spec's decision D24): `FEED` by `k` is the pieces of `k` bytes in order, the last one shorter if need be, none
empty, `ceil(m / k)` of them. -/
def Obligations.FeedSplitsIntoPieces : Prop :=
  ∀ (bytes : List Byte) (k : Nat), 1 ≤ k → ∃ chunks : List (List Byte),
    feed bytes k = chunks.map Instr.append ∧ chunks.flatten = bytes ∧
    chunks.length = (bytes.length + k - 1) / k ∧
    ∀ (j : Nat) (c : List Byte), chunks[j]? = some c → c = (bytes.drop (j * k)).take k ∧ c ≠ []
end

