-- ==== Sys2Proof/Tests/Slice0.lean ====
section
/-! SUPPORT. The model's own tests: ill-formed terms, words written out from the encodings, one or two steps of each
instruction with results taken from spec/95_test_vectors.md, and a witness for the hypotheses of each statement. -/

namespace Sys2Proof.Tests
open Sys2Proof.Machine

/-- The next state of an outcome, if there is one. -/
def nextOf : Host.Outcome State Fault Refusal → Option State
  | .next t => some t
  | .fault _ | .refused _ => none

/-- What an instruction returns. -/
def resultOf (i : Instr) (s : State) : Option Result := (nextOf (exec i s)).map State.result

/-- The status view after an instruction: the vectors' `len / expKnown / expLen / errorFlag`. -/
def viewOf (i : Instr) (s : State) : Option (Nat × Option Byte × Bool) :=
  (nextOf (exec i s)).map (fun t => (t.len, t.expectedLength, t.errorFlag))

/-- An engine that holds the bytes `F` and nothing else. -/
def holding (F : List Byte) : State :=
  { State.reset with acc := cellsFrom 0 F, len := F.length, expectedLength := F[3]? }

/-- `F2` of 95_test_vectors.md: cell voltages, `N = 4`. -/
def frame2 : List Byte := [0xDD, 0x04, 0x00, 0x04, 0x0B, 0x5F, 0x0B, 0x5B, 0xFF, 0x2C, 0x77]

/-- The payload of `F1` of 95_test_vectors.md with the three bytes at frame indices 25 and 26 and behind them left open. -/
def payload1 (cells temps : Byte) (rest : List Byte) : List Byte :=
  [0x05, 0x57, 0xFF, 0x6A, 0x1F, 0x40, 0x27, 0x10, 0x00, 0x2A, 0x2A, 0x6F, 0x90, 0x00, 0x00, 0x00, 0x00, 0x00, 0x10, 0x50,
    0x03, cells, temps] ++ rest

/-- `F1` of 95_test_vectors.md. -/
def operands1 : Frame := { payload := payload1 4 2 [0x0B, 0x5F, 0x0A, 0x47], checksum := 0xFB13, endMarker := 0x77 }
/-- `F2` as operands. -/
def operands2 : Frame := { payload := [0x0B, 0x5F, 0x0B, 0x5B], checksum := 0xFF2C, endMarker := 0x77 }

-- Ill-formed terms, one for each check of WellFormed.

theorem test_wf_refuses_empty_chunk : Instr.wf (.append []) = false := by decide
theorem test_wf_refuses_long_pack_summary :
    Instr.wf (.packSummary { payload := List.replicate 256 0, checksum := 0, endMarker := 0 }) = false := by
  rw [Instr.wf, Frame.wf, List.length_replicate]; rfl
theorem test_wf_refuses_long_cell_voltages :
    Instr.wf (.cellVoltages { payload := List.replicate 256 0, checksum := 0, endMarker := 0 }) = false := by
  rw [Instr.wf, Frame.wf, List.length_replicate]; rfl
theorem test_wf_accepts_longest_payload :
    Instr.wf (.cellVoltages { payload := List.replicate 255 0, checksum := 0, endMarker := 0 }) = true := by
  rw [Instr.wf, Frame.wf, List.length_replicate]; rfl

-- Words written out from the encodings (R49, R37, R53), one for each constructor, and the rejections by name.

theorem test_decode_reset : decode (.op 0b000 []) = .ok .reset := rfl
theorem test_decode_append : decode (.op 0b001 [0xDD, 0x03, 0x00, 0x1B]) = .ok (.append [0xDD, 0x03, 0x00, 0x1B]) := rfl
theorem test_decode_decode : decode (.op 0b010 []) = .ok .decode := rfl
theorem test_decode_pack_summary :
    decode (.frame ([0xDD, 0x03, 0x00, 0x1B] ++ payload1 4 2 [0x0B, 0x5F, 0x0A, 0x47] ++ [0xFB, 0x13, 0x77]))
      = .ok (.packSummary operands1) := rfl
theorem test_decode_cell_voltages : decode (.frame frame2) = .ok (.cellVoltages operands2) := rfl
theorem test_decode_req_pack_summary :
    decode (.request [0xDD, 0xA5, 0x03, 0x00, 0xFF, 0xFD, 0x77]) = .ok .reqPackSummary := rfl
theorem test_decode_req_cell_voltages :
    decode (.request [0xDD, 0xA5, 0x04, 0x00, 0xFF, 0xFC, 0x77]) = .ok .reqCellVoltages := rfl
theorem test_decode_rejects_reserved : decode (.op 0b011 []) = .error .reservedOpCode := rfl
theorem test_decode_rejects_empty_chunk : decode (.op 0b001 []) = .error .emptyChunk := rfl
theorem test_decode_rejects_stray_operand : decode (.op 0b000 [0]) = .error .strayOperand := rfl
theorem test_decode_rejects_short_frame : decode (.frame [0xDD, 0x04, 0x00, 0x00, 0x00, 0x00]) = .error .wrongLength := rfl
theorem test_decode_rejects_start : decode (.frame [0x00, 0x04, 0x00, 0x00, 0x00, 0x00, 0x77]) = .error .badStart := rfl
theorem test_decode_rejects_status : decode (.frame [0xDD, 0x04, 0x80, 0x00, 0x00, 0x00, 0x77]) = .error .badStatus := rfl
theorem test_decode_rejects_command : decode (.frame [0xDD, 0x05, 0x00, 0x00, 0x00, 0x00, 0x77]) = .error .unknownCommand := rfl
theorem test_decode_rejects_request : decode (.request [0xDD, 0xA5, 0x05, 0x00, 0xFF, 0xFB, 0x77]) = .error .notARequest := rfl
/-- The table's header word of a frame, with zeros behind it, stands in the buffer and `DECODE` is issued. -/
theorem test_withFetchWord_frame :
    step (State.reset.withFetchWord 32 0xDD040000)
      = exec (.cellVoltages { payload := [], checksum := 0, endMarker := 0 })
          { State.reset.withFetchWord 32 0xDD040000 with port := [] } := rfl
theorem test_withFetchWord_append :
    step (State.reset.withFetchWord 8 1) = exec (.append [0]) State.reset := rfl

-- Steps of the instructions, results from 95_test_vectors.md.

/-- V23: `RESET` from the latched state of V17. -/
theorem test_reset_releases : viewOf .reset { holding frame2 with errorFlag := true } = some (0, none, false) := by decide
/-- V10: a whole frame in one chunk. -/
theorem test_append_whole_frame : nextOf (exec (.append frame2) State.reset)
    = some { holding frame2 with result := .append .frameComplete } := by decide
/-- V12: the second chunk carries the status and the length byte. -/
theorem test_append_split_header :
    viewOf (.append [0x00, 0x04, 0x0B, 0x5F, 0x0B, 0x5B, 0xFF, 0x2C, 0x77]) (holding [0xDD, 0x04]) = some (11, some 4, false) := by
  decide
/-- V22: `DECODE` of the cell voltages. -/
theorem test_decode_ready :
    resultOf .decode (holding frame2) = some (.decode (.ok (.cellVoltages [2911, 2907]))) := by decide
/-- V45: both values are reported. -/
theorem test_decode_mismatch :
    resultOf .decode (holding [0xDD, 0x04, 0x00, 0x04, 0x0B, 0x5F, 0x0B, 0x5A, 0xFF, 0x2C, 0x77])
      = some (.decode (.err (.checksumMismatch 0xFF2C 0xFF2D))) := by decide
/-- V20: every field of the pack summary. -/
theorem test_pack_summary_fields :
    resultOf (.packSummary operands1) State.reset = some (.decode (.ok (.packSummary
      { totalVoltage_cV := 1367, current_cA := -150, remainingCapacity_cAh := 8000, nominalCapacity_cAh := 10000
        cycleCount := 42, productionDate := { raw := 10863, year := 2021, month := 3, day := 15 }, cellCount := 4
        balancing := [true, false, false, true], protectionStatus := 0, firmwareVersion_x10 := 16
        stateOfCharge_pct := 80, chargeFet := true, dischargeFet := true, tempSensorCount := 2
        temperatures_dC := [180, -100] }))) := by decide
/-- V57: 89 cells with `N = 23`. -/
theorem test_pack_summary_truncated :
    resultOf (.packSummary { payload := payload1 0x59 0 [], checksum := 0xFB7F, endMarker := 0x77 }) State.reset
      = some (.decode (.err .truncated)) := by decide
/-- V33: an odd payload. -/
theorem test_cell_voltages_odd :
    resultOf (.cellVoltages { payload := [0x0B, 0x5F, 0x0B], checksum := 0xFF88, endMarker := 0x77 }) State.reset
      = some (.decode (.ok (.cellVoltages [2911]))) := by decide
/-- V32: no payload, checksum 0. -/
theorem test_cell_voltages_empty :
    resultOf (.cellVoltages { payload := [], checksum := 0, endMarker := 0x77 }) State.reset
      = some (.decode (.ok (.cellVoltages []))) := by decide
theorem test_req_pack_summary_no_effect : exec .reqPackSummary (holding frame2) = .next (holding frame2) := rfl
theorem test_req_cell_voltages_no_effect : exec .reqCellVoltages (holding frame2) = .next (holding frame2) := rfl

-- Witnesses: for each statement with hypotheses, concrete values that meet all of them together, and for a statement with
-- several clauses one for each clause, at the edge of its range where it has one.

/-- `F2` stands complete in the buffer, behind operations still to come. -/
def ready (port : List Code) : State := { holding frame2 with port := port }
/-- A whole, checksum-valid frame with a command byte that is neither `0x03` nor `0x04` (V36). -/
def frameUnknown : List Byte := [0xDD, 0x05, 0x00, 0x02, 0x01, 0x02, 0xFF, 0xFB, 0x77]
/-- `F2` with one payload byte wrong (P4). -/
def frameBad : List Byte := [0xDD, 0x04, 0x00, 0x04, 0x0B, 0x5F, 0x0B, 0x5A, 0xFF, 0x2C, 0x77]
/-- The chunks of a split of `F2` in the middle of its header and of a field. -/
def split2 : List (List Byte) := [[0xDD, 0x04], [0x00, 0x04, 0x0B], [0x5F, 0x0B, 0x5B, 0xFF, 0x2C, 0x77]]

theorem inv_reset : Inv State.reset :=
  ⟨by decide, by decide, rfl, by decide, by simp [State.reset], by simp [State.reset], by simp [State.reset]⟩
theorem inv_holding_frame2 : Inv (holding frame2) :=
  ⟨by decide, by decide, rfl, by decide, by rintro n ⟨⟩; rfl, fun _ => rfl, fun _ => rfl⟩
theorem inv_ready (port : List Code) : Inv (ready port) :=
  let h := inv_holding_frame2
  ⟨h.capMin, h.lenLeCap, h.stored, h.known, h.declared, h.start, h.status⟩
/-- Three bytes of the header stored. -/
theorem inv_header : Inv (holding [0xDD, 0x04, 0x00]) :=
  ⟨by decide, by decide, rfl, by decide, by rintro n ⟨⟩, fun _ => rfl, fun _ => rfl⟩
/-- Ten of the eleven bytes of `F2` stored. -/
theorem inv_body : Inv (holding (frame2.take 10)) :=
  ⟨by decide, by decide, rfl, by decide, by rintro n ⟨⟩; rfl, fun _ => rfl, fun _ => rfl⟩
theorem inv_overrun : Inv (holding (frame2 ++ [0xDD])) :=
  ⟨by decide, by decide, rfl, by decide, by rintro n ⟨⟩; rfl, fun _ => rfl, fun _ => rfl⟩
theorem inv_bad : Inv (holding frameBad) :=
  ⟨by decide, by decide, rfl, by decide, by rintro n ⟨⟩; rfl, fun _ => rfl, fun _ => rfl⟩
theorem inv_unknown : Inv (holding frameUnknown) :=
  ⟨by decide, by decide, rfl, by decide, by rintro n ⟨⟩; rfl, fun _ => rfl, fun _ => rfl⟩
/-- A pack-summary frame without payload (V51). -/
theorem inv_pack : Inv (holding [0xDD, 0x03, 0x00, 0x00, 0x00, 0x00, 0x77]) :=
  ⟨by decide, by decide, rfl, by decide, by rintro n ⟨⟩; rfl, fun _ => rfl, fun _ => rfl⟩
theorem inv_latched : Inv { State.reset with errorFlag := true } :=
  ⟨by decide, by decide, rfl, by decide, by simp [State.reset], by simp [State.reset], by simp [State.reset]⟩

-- AppendRunsItsSevenSteps, AppendPhaseTransitions: one witness for each branch.
theorem witness_append_latched : resultOf (.append [0xDD]) { State.reset with errorFlag := true }
    = some (.append (.error .errorLatched)) ∧ State.phase { State.reset with errorFlag := true } = .error := by decide
theorem witness_append_malformed : resultOf (.append [0xDE]) State.reset = some (.append (.error .malformedStart)) ∧
    State.reset.phase = .idle := by decide
theorem witness_append_fault_first_chunk :
    viewOf (.append [0xDD, 0x03, 0x80]) State.reset = some (0, none, true) := by decide
theorem witness_append_fault_later_chunk :
    resultOf (.append [0x80]) (holding [0xDD, 0x03]) = some (.append (.error .bmsReportedFault)) ∧
    (holding [0xDD, 0x03]).phase = .header := by decide
theorem witness_append_overflow_by_one :
    resultOf (.append [0x77]) { holding (frame2.take 10) with cap := 10 } = some (.append (.error .bufferOverflow)) ∧
    (holding (frame2.take 10)).phase = .body := by decide
theorem witness_append_exactly_full :
    resultOf (.append [0x77]) { holding (frame2.take 10) with cap := 11 } = some (.append .frameComplete) := by decide
theorem witness_append_length_byte_alone :
    viewOf (.append [0x04]) (holding [0xDD, 0x04, 0x00]) = some (4, some 4, false) := by decide
theorem witness_append_length_byte_last :
    viewOf (.append [0xDD, 0x04, 0x00]) State.reset = some (3, none, false) := by decide
theorem witness_append_one_short :
    resultOf (.append (frame2.take 10)) State.reset = some (.append .continuing) := by decide
theorem witness_append_one_over :
    resultOf (.append (frame2 ++ [0x00])) State.reset = some (.append .continuing) := by decide
theorem witness_append_after_complete : (ready []).phase = .complete ∧ (holding (frame2 ++ [0xDD])).phase = .overrun ∧
    resultOf (.append [0xDD]) (ready []) = some (.append .continuing) := by decide
/-- AcceptedChunkIsStoredAndTestedOnce. -/
theorem witness_accepted_chunk : ([0x77] : List Byte) ≠ [] ∧ (holding (frame2.take 10)).errorFlag = false ∧
    (holding (frame2.take 10)).len ≠ 0 ∧ ¬ (holding (frame2.take 10)).len ≤ 2 ∧
    (holding (frame2.take 10)).len + 1 ≤ (holding (frame2.take 10)).cap := by decide
theorem witness_accepted_first_chunk : frame2 ≠ [] ∧ State.reset.errorFlag = false ∧ frame2[0]? = some 0xDD ∧
    frame2[2 - State.reset.len]? = some 0x00 ∧ State.reset.len + frame2.length ≤ State.reset.cap := by decide
/-- MalformedStartLeavesTheEngineReady. -/
theorem witness_malformed_start : ([0x00, 0xDD] : List Byte) ≠ [] ∧ State.reset.errorFlag = false ∧ State.reset.len = 0 ∧
    ([0x00, 0xDD] : List Byte)[0]? ≠ some 0xDD := by decide
/-- BmsReportedFaultAbandonsTheFrame, with the fault in the first byte of the last header chunk that can carry it. -/
theorem witness_bms_fault : (holding [0xDD, 0x03]).errorFlag = false ∧ (holding [0xDD, 0x03]).len = 2 ∧
    2 < (holding [0xDD, 0x03]).len + ([0x80] : List Byte).length ∧
    ([0x80] : List Byte)[2 - (holding [0xDD, 0x03]).len]? ≠ some 0x00 := by decide
/-- BufferOverflowAbandonsTheFrame, one byte too many. -/
theorem witness_overflow : (ready []).errorFlag = false ∧ ¬ (ready []).len = 0 ∧ ¬ (ready []).len ≤ 2 ∧
    (ready []).len + (List.replicate 90 (0 : Byte)).length > (ready []).cap := by decide
/-- ErroringAppendStoresNothing; FrameThatCannotFitNeverCompletes. -/
theorem witness_erroring_append : nextOf (exec (.append [0xDE]) State.reset)
    = some { State.reset with result := .append (.error .malformedStart) } := by decide
theorem witness_cannot_fit : viewOf (.append [0xDD, 0x03, 0x00, 0x5E]) State.reset = some (4, some 0x5E, false) ∧
    State.reset.cap < (0x5E : Byte).toNat + 7 := by decide
/-- ChunkingInvariance. -/
theorem witness_chunking : frame2[0]? = some 0xDD ∧ frame2[2]? = some 0x00 ∧ frame2[3]? = some 4 ∧
    frame2.length = (4 : Byte).toNat + 7 ∧ frame2.length ≤ State.reset.cap ∧ split2.flatten = frame2 ∧
    (∀ c ∈ split2, c ≠ []) ∧ State.reset.acc = [] ∧ State.reset.len = 0 ∧ State.reset.expectedLength = none ∧
    State.reset.errorFlag = false := by decide
/-- AppendsWithoutResetNeverCompleteAgain (the port is free in `inv_ready`): both sides of its equivalence. -/
theorem witness_without_reset : (ready (split2.map (fun c => encode (.append c)) ++ [])).phase = .complete ∧ split2 ≠ [] ∧
    (∀ c ∈ split2, c ≠ []) ∧ ¬ (ready []).len + split2.flatten.length > (ready []).cap ∧
    (ready []).len + [List.replicate 90 (0 : Byte)].flatten.length > (ready []).cap := by decide
/-- LatchIsSetByTwoCausesAndClearedByReset, LenChangesByAcceptedAppendAndResetOnly, OnlyAppendWritesAndOnlyAtLen,
InstructionFrames, EachResultBelongsToItsOperation: every instruction answers a next state somewhere. -/
theorem witness_every_instruction_answers :
    (nextOf (exec .reset (ready []))).isSome ∧ (nextOf (exec (.append [0x00]) (ready []))).isSome ∧
    (nextOf (exec .decode (ready []))).isSome ∧ (nextOf (exec (.packSummary operands1) (ready []))).isSome ∧
    (nextOf (exec (.cellVoltages operands2) (ready []))).isSome ∧ (nextOf (exec .reqPackSummary (ready []))).isSome ∧
    (nextOf (exec .reqCellVoltages (ready []))).isSome := by decide
/-- The checksum statements: whole frames with a payload and with none, valid, with an index of each clause. -/
theorem witness_whole_frames : wholeFrame frame2 = true ∧ validate frame2 = true ∧ payloadLength frame2 = 4 ∧
    wholeFrame [0xDD, 0x04, 0x00, 0x00, 0x00, 0x00, 0x77] = true ∧
    checksum [0xDD, 0x04, 0x00, 0x00, 0x00, 0x00, 0x77] = 0 := by decide
theorem witness_coverage_edges : validate (frame2.set 2 1) = true ∧ validate (frame2.set 10 0) = true ∧
    validate (frame2.set 4 0) = false ∧ validate (frame2.set 7 0) = false ∧
    checksum (frame2.set 8 0) = checksum frame2 := by decide
/-- PairsAreBigEndian: the first and the last reads inside the payload, and the first outside. -/
theorem witness_field_reads : (u16 frame2 4).toOption = some 0x0B5F ∧ (u16 frame2 6).toOption = some 0x0B5B ∧
    (u16 frame2 7).toOption = none ∧ (u8 frame2 7).toOption = some 0x5B ∧ (u8 frame2 8).toOption = none ∧
    (u8 frame2 3).toOption = none := by decide
theorem witness_two_bytes : (byteAt frame2 4).toNat < 255 ∧ 0 < (byteAt frame2 7).toNat ∧
    validate ((frame2.set 4 (byteAt frame2 4 + 1)).set 7 (byteAt frame2 7 - 1)) = true := by decide
/-- DecodeFollowsItsOrder and the statements on its single errors: every branch (sound states above). -/
theorem witness_decode_not_ready : (holding (frame2.take 10)).frameReady = false ∧
    State.frameReady { holding frame2 with errorFlag := true } = false ∧ (holding (frame2 ++ [0])).frameReady = false ∧
    resultOf .decode (holding (frame2.take 10)) = some (.decode (.err .noFrame)) := by decide
theorem witness_decode_cells : (ready []).frameReady = true ∧ wholeFrame frame2 = true ∧
    checksum frame2 = received frame2 ∧ byteAt frame2 1 = 0x04 := by decide
theorem witness_decode_frame_read : (ready []).frame = .ok frame2 ∧ (holding frameBad).frame = .ok frameBad ∧
    (holding frameUnknown).frame = .ok frameUnknown := ⟨rfl, rfl, rfl⟩
theorem witness_decode_mismatch : (holding frameBad).frameReady = true ∧ wholeFrame frameBad = true ∧
    checksum frameBad ≠ received frameBad := by decide
theorem witness_decode_unknown : (holding frameUnknown).frameReady = true ∧ wholeFrame frameUnknown = true ∧
    checksum frameUnknown = received frameUnknown ∧ byteAt frameUnknown 1 = 0x05 := by decide
/-- UnknownCommandComesFromDecodeAlone: a frame with any command byte is reassembled. -/
theorem witness_any_command : wholeFrame frameUnknown = true ∧ byteAt frameUnknown 0 = startMarker ∧
    byteAt frameUnknown 2 = statusOk ∧ frameUnknown.length ≤ State.reset.cap ∧ State.reset.len = 0 ∧
    State.reset.errorFlag = false ∧ resultOf (.append frameUnknown) State.reset = some (.append .frameComplete) := by decide
theorem witness_decode_pack : (holding [0xDD, 0x03, 0x00, 0x00, 0x00, 0x00, 0x77]).frameReady = true ∧
    resultOf .decode (holding [0xDD, 0x03, 0x00, 0x00, 0x00, 0x00, 0x77]) = some (.decode (.err .truncated)) := by decide
/-- DecodeIsReadOnlyAndRepeatable. -/
theorem witness_decode_repeatable : nextOf (exec .decode (ready []))
    = some { ready [] with result := .decode (.ok (.cellVoltages [2911, 2907])) } := by decide
/-- FrameInstructionsValidateFirst, and the two record statements. -/
theorem witness_frame_checksums : operands1.wf = true ∧ operands2.wf = true ∧
    operands1.checksum = checksum (frameBytes cmdPack operands1) ∧
    operands2.checksum = checksum (frameBytes cmdCells operands2) ∧
    ({ operands2 with checksum := 0 } : Frame).checksum ≠ checksum (frameBytes cmdPack { operands2 with checksum := 0 }) ∧
    ({ operands2 with checksum := 0 } : Frame).checksum ≠ checksum (frameBytes cmdCells { operands2 with checksum := 0 }) := by
  decide
theorem witness_pack_summary_fits : 23 + 2 * (operands1.payload.getD 22 0).toNat ≤ operands1.payload.length ∧
    12 + ((operands1.payload.getD 21 0).toNat - 1) / 8 < operands1.payload.length := by decide
/-- PackSummaryIsTruncatedExactlyWhenItDoesNotFit: each condition at its edge, and the edge that fits (V51, V52, V57). -/
theorem witness_truncated_fixed_part :
    resultOf (.packSummary { payload := (payload1 4 0 []).take 22, checksum := 0xFBD5, endMarker := 0x77 }) State.reset
      = some (.decode (.err .truncated)) := by decide
theorem witness_truncated_sensors :
    resultOf (.packSummary { payload := payload1 4 2 [0x0B, 0x5F, 0x0A], checksum := 0xFB5B, endMarker := 0x77 }) State.reset
      = some (.decode (.err .truncated)) := by decide
theorem witness_fits_88_cells :
    (({ payload := payload1 0x58 0 [], checksum := 0xFB80, endMarker := 0x77 } : Frame).checksum
      = checksum (frameBytes cmdPack { payload := payload1 0x58 0 [], checksum := 0xFB80, endMarker := 0x77 })) ∧
    resultOf (.packSummary { payload := payload1 0x58 0 [], checksum := 0xFB80, endMarker := 0x77 }) State.reset
      ≠ some (.decode (.err .truncated)) := by decide
/-- The step statements. -/
theorem witness_step_issued : (ready [.op 0 []]).port = .op 0 [] :: [] ∧ (∀ F, Code.op 0 [] ≠ .frame F) ∧
    decode (.op 0 []) = .ok .reset := ⟨rfl, fun _ => by simp, rfl⟩
theorem witness_step_frame : (ready [encode .decode]).port = encode .decode :: [] ∧
    (ready [encode .decode]).frameReady = true ∧ (ready [encode .decode]).frame = .ok frame2 ∧
    decode (.frame frame2) = .ok (.cellVoltages operands2) := ⟨rfl, by decide, rfl, rfl⟩
theorem witness_idle : State.reset.port = [] ∧ nextOf (step State.reset) = some State.reset := by decide
theorem witness_refusals : step (ready [.op 3 []]) = .refused (.rejected .reservedOpCode) ∧
    step (ready [.op 7 [0]]) = .refused (.rejected .reservedOpCode) ∧
    step (ready [.op 1 []]) = .refused (.rejected .emptyChunk) ∧ step (ready [.frame frame2]) = .refused .frameOnPort ∧
    exec (.append []) State.reset = .refused .emptyChunk := ⟨rfl, rfl, rfl, rfl, rfl⟩
theorem witness_port_refusals : step (ready [.op 0 [0]]) = .refused (.rejected .strayOperand) ∧
    step (ready [.op 2 [0]]) = .refused (.rejected .strayOperand) ∧
    step (ready [.request []]) = .refused (.rejected .notARequest) ∧
    step (ready [.request [0xDD, 0xA5, 0x05, 0x00, 0xFF, 0xFB, 0x77]]) = .refused (.rejected .notARequest) :=
  ⟨rfl, rfl, rfl, rfl⟩
theorem witness_payload_too_long :
    255 < ({ payload := List.replicate 256 0, checksum := 0, endMarker := 0 } : Frame).payload.length := by
  rw [List.length_replicate]; decide
/-- CauseAndOutcomeCodes (R50, R51): a cause reported, and none. -/
theorem witness_cause_code : Result.cause (.decode (.err (.checksumMismatch 1 2))) = some (.checksumMismatch 1 2) ∧
    Result.causeCode (.decode (.err (.checksumMismatch 1 2))) = 4 ∧
    Result.causeCode (.append .frameComplete) = 0 ∧ AppendOutcome.code (.error .noFrame) = 2 := by decide
/-- EveryStepKeepsTheInvariant, SoundStatesNeverFaultAndGoOn, MemoryStaysCanonicalAndCapacityFixed (with `inv_ready`). -/
theorem witness_sound_step : NextLegal (ready [encode .decode, .op 7 []]) ∧ NextLegal State.reset ∧
    (nextOf (step (ready [encode .decode, .op 7 []]))).isSome = true ∧
    (ready [encode .decode]).acc.wf = true :=
  ⟨fun c hc => ⟨.decode, by cases hc; rfl⟩, fun _ hc => absurd hc (by simp [State.reset]), by decide, by decide⟩
/-- PollCycleDecodesTheFrameDelivered, from a latched state in the middle of a frame. -/
theorem witness_poll_cycle :
    ({ holding [0xDD, 0x03] with
        errorFlag := true
        port := (poll .reqCellVoltages frame2 5).map encode } : State).port
      = encode .reset :: encode .reqCellVoltages ::
        ((pieces 5 11 frame2).map (fun c => encode (.append c)) ++ encode .decode :: []) ∧
    (pieces 5 11 frame2).flatten = frame2 ∧ (∀ c ∈ pieces 5 11 frame2, c ≠ []) ∧ frame2.length ≤ State.reset.cap := by decide
/-- DecodeOfEncodeIsTheInstruction, EncodeOfDecodeIsTheEncoding: decoding `F1` and encoding it back. -/
theorem witness_encoding : Instr.wf (.packSummary operands1) = true ∧
    decode (encode (.packSummary operands1)) = .ok (.packSummary operands1) := ⟨by decide, rfl⟩
/-- FeedSplitsIntoPieces at the smallest piece. -/
theorem witness_feed : feed [0xDD, 0x04] 1 = [.append [0xDD], .append [0x04]] := by decide

end Sys2Proof.Tests
end

/-! The step as a function of the port, and the meanings from a sound state (spec 00_scope.md R5). -/

namespace Sys2Proof.Machine

/-- The signed reading with the sign bit's threshold written out (R9). -/
theorem s16_eq (v : Half) : s16 v = if v.toNat ≥ 32768 then (v.toNat : Int) - 65536 else v.toNat := by
  rw [s16, BitVec.toInt_eq_toNat_cond]
  split <;> split <;> omega

theorem deciCelsius_eq (raw : Half) : deciCelsius raw = (raw.toNat : Int) - 2731 := rfl

/-- Nothing wraps: the bounds are those of the raw 16-bit value, each less 2731 (R48). -/
theorem deciCelsius_range (raw : Half) : -2731 ≤ deciCelsius raw ∧ deciCelsius raw ≤ 62804 := by
  have := raw.isLt
  rw [deciCelsius_eq]
  omega

theorem step_of_empty_port {s : State} (hp : s.port = []) : step s = .next s := by
  simp [step, fetch, hp]

theorem step_of_port_error {s : State} {c : Code} {rest : List Code} {r : Refusal} (hp : s.port = c :: rest)
    (hd : decodePort c = .error r) : step s = .refused r := by
  simp [step, fetch, hp, hd]

theorem decodePort_of_decode {c : Code} {i : Instr} (hc : ∀ F, c ≠ .frame F) (hd : Sys2Proof.decode c = .ok i) :
    decodePort c = .ok i := by
  rw [decodePort_eq hc, hd]

/-- What the port takes as an instruction, the decoder does too. -/
theorem decode_of_decodePort {c : Code} {i : Instr} (hd : decodePort c = .ok i) : Sys2Proof.decode c = .ok i := by
  have hc : ∀ F, c ≠ .frame F := by
    rintro F rfl
    cases hd
  rw [decodePort_eq hc] at hd
  cases h : Sys2Proof.decode c with
  | ok j => rw [h] at hd; cases hd; rfl
  | error why => rw [h] at hd; cases hd

/-- The lemmas `DecodedWellFormed` of the single instructions, as one statement about the decoder. -/
theorem wf_of_decode {c : Code} {i : Instr} (hd : Sys2Proof.decode c = .ok i) : i.wf = true := by
  cases i with
  | reset => exact Laws.DecodedWellFormed.reset c hd
  | append chunk => exact Laws.DecodedWellFormed.append chunk c hd
  | decode => exact Laws.DecodedWellFormed.decode c hd
  | packSummary f => exact Laws.DecodedWellFormed.packSummary f c hd
  | cellVoltages f => exact Laws.DecodedWellFormed.cellVoltages f c hd
  | reqPackSummary => exact Laws.DecodedWellFormed.reqPackSummary c hd
  | reqCellVoltages => exact Laws.DecodedWellFormed.reqCellVoltages c hd

theorem execAppend_of_cause {chunk : List Byte} {s : State} {c : Cause} (hne : chunk ≠ [])
    (hc : appendCause chunk s = some c) : execAppend chunk s = .next (s.raise c) := by
  simp [execAppend, hne, hc]

theorem execAppend_of_no_cause {chunk : List Byte} {s : State} (hne : chunk ≠ []) (hc : appendCause chunk s = none) :
    execAppend chunk s = .next ((s.accept chunk).answer (.append (s.accept chunk).appendOutcome)) := by
  simp [execAppend, hne, hc]

theorem execAppend_completes {chunk : List Byte} (hne : chunk ≠ []) (s : State) :
    ∃ t, execAppend chunk s = .next t := by
  cases hc : appendCause chunk s with
  | some c => exact ⟨_, execAppend_of_cause hne hc⟩
  | none => exact ⟨_, execAppend_of_no_cause hne hc⟩

theorem execDecode_of_not_ready {s : State} (hr : s.frameReady = false) : execDecode s = .next (s.raise .noFrame) := by
  simp [execDecode, hr]

theorem execDecode_of_ready {s : State} {F : List Byte} (hr : s.frameReady = true) (hF : s.frame = .ok F)
    (hw : wholeFrame F = true) : execDecode s = .next (s.answerDecode (decodeFrame F)) := by
  simp [execDecode, hr, hF, hw]

/-- None of `DECODE`'s three faults can be raised in a sound state: a ready frame is one whole frame (R15, R76). -/
theorem execDecode_completes {s : State} (h : Inv s) : ∃ t, execDecode s = .next t := by
  cases hr : s.frameReady with
  | false => exact ⟨_, execDecode_of_not_ready hr⟩
  | true =>
    obtain ⟨F, hF, hw, -, -⟩ := wholeFrame_of_ready h hr
    exact ⟨_, execDecode_of_ready hr hF hw⟩

theorem execPackSummary_of_wf {f : Frame} (hf : f.wf = true) (s : State) :
    execPackSummary f s = .next (s.answerDecode (runValidated packSummary (frameBytes cmdPack f))) := by
  simp [execPackSummary, hf]

theorem execCellVoltages_of_wf {f : Frame} (hf : f.wf = true) (s : State) :
    execCellVoltages f s = .next (s.answerDecode (runValidated cellVoltages (frameBytes cmdCells f))) := by
  simp [execCellVoltages, hf]

/-- In a sound state every instruction that has an encoding runs to completion: errors are results (R5, R120). -/
theorem exec_completes {i : Instr} {s : State} (h : Inv s) (hi : i.wf = true) : ∃ t, exec i s = .next t := by
  cases i with
  | reset => exact ⟨s.clear, rfl⟩
  | append chunk =>
    have hne : chunk ≠ [] := by simpa [Instr.wf] using hi
    exact execAppend_completes hne s
  | decode => exact execDecode_completes h
  | packSummary f => exact ⟨_, execPackSummary_of_wf hi s⟩
  | cellVoltages f => exact ⟨_, execCellVoltages_of_wf hi s⟩
  | reqPackSummary => exact ⟨s, rfl⟩
  | reqCellVoltages => exact ⟨s, rfl⟩

/-- The invariant does not speak of the port. -/
theorem inv_withPort {s : State} (h : Inv s) (p : List Code) : Inv { s with port := p } where
  capMin := h.capMin
  lenLeCap := h.lenLeCap
  stored := h.stored
  known := h.known
  declared := h.declared
  start := h.start
  status := h.status

/-- A sound state whose port begins with a legal entry, or is empty, steps on (R5). -/
theorem step_completes_of_inv {s : State} (h : Inv s) (hl : NextLegal s) : StepCompletes s := by
  cases hp : s.port with
  | nil => exact ⟨s, step_of_empty_port hp⟩
  | cons c rest =>
    obtain ⟨i, hd⟩ := hl c (by rw [hp]; rfl)
    obtain ⟨t, ht⟩ := exec_completes (inv_withPort h rest) (wf_of_decode (decode_of_decodePort hd))
    exact ⟨t, (step_of_port hp hd).trans ht⟩

/-- Only an entry at the head of the port that is no operation can stop the engine, and it stops it by a refusal. -/
theorem step_refuses_of_not_nextLegal {s : State} (hl : ¬ NextLegal s) : ∃ r, step s = .refused r := by
  simp only [NextLegal, not_forall] at hl
  obtain ⟨c, hhead, hno⟩ := hl
  obtain ⟨rest, hp⟩ := List.head?_eq_some_iff.1 hhead
  cases hd : decodePort c with
  | ok i => exact absurd ⟨i, hd⟩ hno
  | error r => exact ⟨r, step_of_port_error hp hd⟩

theorem step_ne_fault_of_inv {s : State} (h : Inv s) (f : Fault) : step s ≠ .fault f := by
  by_cases hl : NextLegal s
  · obtain ⟨t, ht⟩ := step_completes_of_inv h hl
    simp [ht]
  · obtain ⟨r, hr⟩ := step_refuses_of_not_nextLegal hl
    simp [hr]

/-- Settles O46: a legal head of the port runs an instruction with an encoding, which completes in a sound state; any other
head is refused. -/
theorem soundStatesNeverFaultAndGoOn : Obligations.SoundStatesNeverFaultAndGoOn :=
  fun _ h => ⟨step_ne_fault_of_inv h, step_completes_of_inv h⟩

/-- Settles O38. -/
theorem signedReadings : Obligations.SignedReadings :=
  fun v => ⟨s16_eq v, deciCelsius_eq v, deciCelsius_range v⟩

/-- Settles O40: an entry that is no response frame decodes on the port as it does in the decoder. -/
theorem stepRunsTheIssuedInstruction : Obligations.StepRunsTheIssuedInstruction :=
  fun _ _ _ _ hp hc hd => step_of_port hp (decodePort_of_decode hc hd)

/-- Settles O42. -/
theorem idleEngineKeepsItsState : Obligations.IdleEngineKeepsItsState :=
  fun _ hp => step_of_empty_port hp

end Sys2Proof.Machine

/-! What one instruction does to the state, said once. From it: R15's invariant, the latch, the position and the frames; and
that no instruction looks at the port or at an earlier result (spec 10_state.md). -/

namespace Sys2Proof.Machine

/-- A cause found by `APPEND` is handed out as an `APPEND` error (R51). -/
theorem result_of_appendCause {chunk : List Byte} {s : State} {c : Cause} (h : appendCause chunk s = some c) :
    c.result = .append (.error c) := by
  rcases appendCause_mem h with rfl | rfl | rfl | rfl <;> rfl

/-- The latch is tested first (R56). -/
theorem appendCause_of_latched {s : State} (h : s.errorFlag = true) (chunk : List Byte) :
    appendCause chunk s = some .errorLatched := by
  simp [appendCause, h]

theorem latches_iff (c : Cause) : c.latches = true ↔ c = .bmsReportedFault ∨ c = .bufferOverflow := by
  cases c <;> simp [Cause.latches]

/-- The outcome of an accepted chunk is no error (R50). -/
theorem appendOutcome_ne_error (s : State) (c : Cause) : s.appendOutcome ≠ .error c := by
  unfold State.appendOutcome
  split <;> simp

/-- An error that does not latch is an answer and nothing more (R120). -/
theorem raise_eq_answer {c : Cause} (h : c.latches = false) (s : State) : s.raise c = s.answer c.result := by
  simp [State.raise, State.answer, h]

/-- `DECODE` only answers (R83). -/
theorem execDecode_answers {s t : State} (h : execDecode s = .next t) : ∃ x, t = s.answer x := by
  rcases execDecode_cases h with ⟨-, rfl⟩ | ⟨-, F, -, -, rfl⟩
  · exact ⟨_, raise_eq_answer rfl s⟩
  · exact ⟨_, answerDecode_frame fun c hc => (decodeFrame_error hc).1⟩

/-- `PACK_SUMMARY` only answers (R83). -/
theorem execPackSummary_answers {f : Frame} {s t : State} (h : execPackSummary f s = .next t) : ∃ x, t = s.answer x := by
  unfold execPackSummary at h
  split at h
  · cases h
    exact ⟨_, answerDecode_frame fun c hc => (runValidated_error (fun _ => packSummary_error) hc).1⟩
  · cases h

theorem cellVoltages_ne_error (F : List Byte) (c : Cause) : cellVoltages F ≠ .error c := by
  obtain ⟨mv, hmv, -⟩ := cellVoltages_eq F
  simp [hmv]

/-- `CELL_VOLTAGES` only answers (R83). -/
theorem execCellVoltages_answers {f : Frame} {s t : State} (h : execCellVoltages f s = .next t) :
    ∃ x, t = s.answer x := by
  unfold execCellVoltages at h
  split at h
  · cases h
    exact ⟨_, answerDecode_frame fun c hc =>
      (runValidated_error (fun d hd => absurd hd (cellVoltages_ne_error _ d)) hc).1⟩
  · cases h

/-- `Effect s i t`: what `i` makes of the elements of `s`. `APPEND` takes an error or accepts its chunk; `DECODE` and the
frame rows only answer; a request does nothing. -/
inductive Effect (s : State) : Instr → State → Prop
  | reset : Effect s .reset s.clear
  | appendError {chunk : List Byte} {c : Cause} (hne : chunk ≠ []) (hc : appendCause chunk s = some c) :
      Effect s (.append chunk) (s.raise c)
  | appendAccepted {chunk : List Byte} (hne : chunk ≠ []) (hc : appendCause chunk s = none) :
      Effect s (.append chunk) ((s.accept chunk).answer (.append (s.accept chunk).appendOutcome))
  | decode (x : Result) : Effect s .decode (s.answer x)
  | packSummary (f : Frame) (x : Result) : Effect s (.packSummary f) (s.answer x)
  | cellVoltages (f : Frame) (x : Result) : Effect s (.cellVoltages f) (s.answer x)
  | reqPackSummary : Effect s .reqPackSummary s
  | reqCellVoltages : Effect s .reqCellVoltages s

/-- Every instruction that completes has its effect. -/
theorem effect_of_exec {i : Instr} {s t : State} (h : exec i s = .next t) : Effect s i t := by
  cases i with
  | reset => cases h; exact .reset
  | append chunk =>
    obtain ⟨hne, ⟨c, hc, rfl⟩ | ⟨hc, rfl⟩⟩ := execAppend_cases h
    · exact .appendError hne hc
    · exact .appendAccepted hne hc
  | decode => obtain ⟨x, rfl⟩ := execDecode_answers h; exact .decode x
  | packSummary f => obtain ⟨x, rfl⟩ := execPackSummary_answers h; exact .packSummary f x
  | cellVoltages f => obtain ⟨x, rfl⟩ := execCellVoltages_answers h; exact .cellVoltages f x
  | reqPackSummary => cases h; exact .reqPackSummary
  | reqCellVoltages => cases h; exact .reqCellVoltages

/-- A byte is carried from indices at or above the position only. -/
theorem carried_of_lt {chunk : List Byte} {n k : Nat} (h : k < n) : carried chunk n k = none := by
  rw [carried_eq, if_neg (by omega)]

/-- A chunk carries the frame indices from the position on, as many as it has bytes. -/
theorem carried_isSome (chunk : List Byte) (n k : Nat) :
    (carried chunk n k).isSome = true ↔ n ≤ k ∧ k < n + chunk.length := by
  rw [carried_eq]
  split
  · simp; omega
  · simp_all

/-- Frame index 0 of a first chunk is its first byte. -/
theorem carried_zero (chunk : List Byte) : carried chunk 0 0 = chunk.head? := by
  cases chunk <;> simp [carried]

/-- The status test passes when the byte carried for index 2, if any, is zero (R59). -/
theorem carriesFault_eq_false_iff (chunk : List Byte) (n : Nat) :
    carriesFault chunk n = false ↔ ∀ b, carried chunk n 2 = some b → b = statusOk := by
  unfold carriesFault
  cases carried chunk n 2 <;> simp

/-- After an accepted chunk an index reads as the byte carried for it, or else as before (R62). -/
theorem accept_read_eq_carried_or (s : State) (chunk : List Byte) (k : Nat) :
    (s.accept chunk).acc.read k = (carried chunk s.len k).or (s.acc.read k) := by
  rw [accept_read, carried_eq]
  split
  · rw [List.getElem?_eq_getElem (by omega)]; rfl
  · rfl

/-- The invariant speaks of four elements. -/
theorem inv_of_eq {s t : State} (h : Inv s) (hacc : t.acc = s.acc) (hlen : t.len = s.len)
    (hexp : t.expectedLength = s.expectedLength) (hcap : t.cap = s.cap) : Inv t where
  capMin := hcap ▸ h.capMin
  lenLeCap := hcap ▸ hlen ▸ h.lenLeCap
  stored := by rw [hacc, hlen, h.stored]
  known := by rw [State.expKnown, hexp, hlen]; exact h.known
  declared := by rw [hexp, hacc]; exact h.declared
  start := by rw [hlen, hacc]; exact h.start
  status := by rw [hlen, hacc]; exact h.status

/-- A cleared engine is sound: only the bound on the capacity is left to hold (R55). -/
theorem inv_clear {s : State} (h : Config.minCap ≤ s.cap) : Inv s.clear where
  capMin := h
  lenLeCap := Nat.zero_le _
  stored := rfl
  known := by simp [State.expKnown]
  declared := by simp
  start := by simp
  status := by simp

/-- An accepted chunk keeps the invariant: start marker, status byte and length byte have each been tested or captured by the
chunk that carries them, and stand unchanged after that (R57 to R62). -/
theorem inv_accept {s : State} {chunk : List Byte} (h : Inv s) (hc : appendCause chunk s = none) :
    Inv (s.accept chunk) := by
  obtain ⟨-, hhead, hfault, hroom⟩ := (appendCause_none_iff chunk s).1 hc
  obtain ⟨hlen, hexp, -, hcap, -, -⟩ := accept_fields s chunk
  refine ⟨hcap ▸ h.capMin, ?lenLeCap, ?stored, ?known, ?declared, ?start, ?status⟩
  case lenLeCap => rwa [hlen, hcap]
  case stored => rw [accept_stored s chunk h.stored, hlen]
  case known =>
    have hold := h.known
    rw [State.expKnown] at hold ⊢
    rw [hexp, Option.isSome_or, Bool.or_eq_true, carried_isSome, hold, hlen]
    omega
  case declared =>
    intro n hn
    rw [hexp] at hn
    rw [accept_read_eq_carried_or]
    cases hb : carried chunk s.len 3 with
    | some b => simpa [hb] using hn
    | none => simpa using h.declared n (by simpa [hb] using hn)
  case start =>
    intro hpos
    rw [accept_read_eq_carried_or]
    by_cases h0 : s.len = 0
    · rw [h0, carried_zero, hhead h0]; rfl
    · rw [carried_of_lt (by omega), h.start (by omega)]; rfl
  case status =>
    intro hpos
    rw [accept_read_eq_carried_or]
    by_cases h2 : s.len ≤ 2
    · obtain ⟨b, hb⟩ := Option.isSome_iff_exists.1 ((carried_isSome chunk s.len 2).2 ⟨h2, by omega⟩)
      rw [hb, (carriesFault_eq_false_iff _ _).1 hfault b hb]; rfl
    · rw [carried_of_lt (by omega), h.status (by omega)]; rfl

/-- Every instruction keeps the invariant (R15). -/
theorem inv_of_effect {i : Instr} {s t : State} (h : Inv s) (he : Effect s i t) : Inv t := by
  cases he with
  | reset => exact inv_clear h.capMin
  | appendError => exact inv_of_eq h rfl rfl rfl rfl
  | appendAccepted hne hc => exact inv_of_eq (inv_accept h hc) rfl rfl rfl rfl
  | decode | packSummary | cellVoltages => exact inv_of_eq h rfl rfl rfl rfl
  | reqPackSummary | reqCellVoltages => exact h

/-- Settles O44: an idle step keeps the state, any other runs one instruction, whose effect keeps the invariant. -/
theorem everyStepKeepsTheInvariant : Obligations.EveryStepKeepsTheInvariant := by
  intro s t h hs
  rcases step_cases hs with ⟨-, rfl⟩ | ⟨c, rest, i, -, -, hx⟩
  · exact h
  · exact inv_of_effect (inv_withPort h rest) (effect_of_exec hx)

/-- Taking an `APPEND` error sets the latch exactly when the result names one of the two latching causes (R14). -/
theorem raise_errorFlag_iff {chunk : List Byte} {s : State} {c : Cause} (hc : appendCause chunk s = some c) :
    (s.raise c).errorFlag = true ↔ s.errorFlag = true ∨
      (s.raise c).result = .append (.error .bmsReportedFault) ∨
      (s.raise c).result = .append (.error .bufferOverflow) := by
  simp [result_of_appendCause hc, latches_iff]

/-- What each effect does to the latch (R14). -/
theorem errorFlag_of_effect {i : Instr} {s t : State} (he : Effect s i t) :
    t.errorFlag = true ↔ (s.errorFlag = true ∧ i ≠ .reset) ∨
      (∃ c, i = .append c ∧ (t.result = .append (.error .bmsReportedFault) ∨
        t.result = .append (.error .bufferOverflow))) := by
  cases he with
  | reset => simp
  | appendError hne hc => simpa using raise_errorFlag_iff hc
  | appendAccepted => simp [accept_fields, appendOutcome_ne_error]
  | decode | packSummary | cellVoltages => simp
  | reqPackSummary | reqCellVoltages => simp

/-- Settles O14: the effects one by one; a latched engine refuses `APPEND` at the first test and is not ready for `DECODE`. -/
theorem latchIsSetByTwoCausesAndClearedByReset : Obligations.LatchIsSetByTwoCausesAndClearedByReset := by
  refine ⟨rfl, fun i s t h => errorFlag_of_effect (effect_of_exec h), fun chunk s hs hne => ?_, fun s hs => ?_⟩
  · exact (execAppend_of_cause hne (appendCause_of_latched hs chunk)).trans (congrArg _ (raise_eq_answer rfl s))
  · have hr : s.frameReady = false := by simp [State.frameReady, hs]
    exact (execDecode_of_not_ready hr).trans (congrArg _ (raise_eq_answer rfl s))

/-- Settles O15: a refused chunk leaves `len`, an accepted one adds its length and fits, for room was the last test. -/
theorem lenChangesByAcceptedAppendAndResetOnly : Obligations.LenChangesByAcceptedAppendAndResetOnly := by
  refine ⟨Nat.zero_le _, fun i s t h => ?_⟩
  cases effect_of_exec h with
  | reset => simp
  | appendError hne hc => simp [result_of_appendCause hc]
  | @appendAccepted chunk hne hc =>
    obtain ⟨-, -, -, hroom⟩ := (appendCause_none_iff chunk s).1 hc
    simp [accept_fields, appendOutcome_ne_error, hroom]
  | decode | packSummary | cellVoltages => simp
  | reqPackSummary | reqCellVoltages => simp

/-- Settles O17: the effects one by one. -/
theorem instructionFrames : Obligations.InstructionFrames := by
  intro i s t h
  cases effect_of_exec h with
  | reset => simp
  | appendError => simp
  | appendAccepted => simp [accept_fields]
  | decode | packSummary | cellVoltages => simp [State.answer]
  | reqPackSummary | reqCellVoltages => simp

/-- `s` with another port and another last result: the two elements that are the model's own (log 2, log 3). -/
def State.withPortResult (s : State) (p : List Code) (r : Result) : State := { s with port := p, result := r }

/-- The same outcome, a next state with port `p`. -/
def onPort (p : List Code) : Host.Outcome State Fault Refusal → Host.Outcome State Fault Refusal
  | .next t => .next { t with port := p }
  | .fault f => .fault f
  | .refused r => .refused r

theorem storeChunk_withPortResult (s : State) (p : List Code) (r : Result) (chunk : List Byte) :
    (s.withPortResult p r).storeChunk chunk = (s.storeChunk chunk).withPortResult p r := by
  induction chunk generalizing s with
  | nil => rfl
  | cons b chunk ih => exact ih (s.storeByte b)

theorem captureLength_withPortResult (s : State) (p : List Code) (r : Result) (chunk : List Byte) :
    (s.withPortResult p r).captureLength chunk = (s.captureLength chunk).withPortResult p r := by
  simp only [State.captureLength, State.withPortResult]
  cases carried chunk s.len 3 <;> rfl

theorem accept_withPortResult (s : State) (p : List Code) (r : Result) (chunk : List Byte) :
    (s.withPortResult p r).accept chunk = (s.accept chunk).withPortResult p r := by
  rw [State.accept, captureLength_withPortResult, storeChunk_withPortResult, State.accept]

theorem readBytes_withPortResult (s : State) (p : List Code) (r : Result) (k n : Nat) :
    (s.withPortResult p r).readBytes k n = s.readBytes k n := by
  have hbyte : (s.withPortResult p r).readByte = s.readByte := rfl
  induction n generalizing k with
  | zero => rfl
  | succ n ih => rw [State.readBytes, State.readBytes, hbyte, ih]

theorem answerDecode_withPortResult (s : State) (p : List Code) (r : Result) (d : Except Cause DecodedRecord) :
    (s.withPortResult p r).answerDecode d = { s.answerDecode d with port := p } := by
  cases d <;> rfl

theorem execAppend_withPortResult (chunk : List Byte) (s : State) (p : List Code) (r : Result) :
    execAppend chunk (s.withPortResult p r) = onPort p (execAppend chunk s) := by
  have hcause : appendCause chunk (s.withPortResult p r) = appendCause chunk s := rfl
  by_cases hne : chunk = []
  · subst hne; rfl
  · cases hc : appendCause chunk s with
    | some c => rw [execAppend_of_cause hne hc, execAppend_of_cause hne (hcause.trans hc)]; rfl
    | none =>
      rw [execAppend_of_no_cause hne hc, execAppend_of_no_cause hne (hcause.trans hc), accept_withPortResult]
      rfl

theorem execDecode_withPortResult (s : State) (p : List Code) (r : Result) :
    execDecode (s.withPortResult p r) = onPort p (execDecode s) := by
  have hready : (s.withPortResult p r).frameReady = s.frameReady := rfl
  have hframe : (s.withPortResult p r).frame = s.frame := readBytes_withPortResult s p r 0 s.len
  rw [execDecode, execDecode, hready, hframe]
  cases s.frameReady with
  | false => rfl
  | true =>
    cases s.frame with
    | error f => rfl
    | ok F =>
      cases hw : wholeFrame F with
      | false => simp [hw, onPort]
      | true => simp [hw, onPort, answerDecode_withPortResult]

/-- No instruction looks at what is still on the port, and none but a request keeps the last result (R19, R20). -/
theorem exec_withPortResult {i : Instr} (hp : i ≠ .reqPackSummary) (hc : i ≠ .reqCellVoltages) (s : State)
    (p : List Code) (r : Result) : exec i (s.withPortResult p r) = onPort p (exec i s) := by
  cases i with
  | reset => rfl
  | append chunk => exact execAppend_withPortResult chunk s p r
  | decode => exact execDecode_withPortResult s p r
  | packSummary f =>
    simp only [exec, execPackSummary, answerDecode_withPortResult]
    split <;> rfl
  | cellVoltages f =>
    simp only [exec, execCellVoltages, answerDecode_withPortResult]
    split <;> rfl
  | reqPackSummary => exact absurd rfl hp
  | reqCellVoltages => exact absurd rfl hc

/-- The port alone makes no difference to any instruction, the requests included. -/
theorem exec_withPort (i : Instr) (s : State) (p : List Code) :
    exec i { s with port := p } = onPort p (exec i s) := by
  by_cases hp : i = .reqPackSummary
  · subst hp; rfl
  · by_cases hc : i = .reqCellVoltages
    · subst hc; rfl
    · exact exec_withPortResult hp hc s p s.result

/-- Settles O20: the outcome for any port and result is that for the state's own, but for the port it hands on. -/
theorem noHiddenState : Obligations.NoHiddenState := by
  refine ⟨fun i s r hp hc => ?_, fun i s p => ?_⟩
  · calc exec i (s.withPortResult s.port r)
        = onPort s.port (exec i s) := exec_withPortResult hp hc s s.port r
      _ = exec i (s.withPortResult s.port s.result) := (exec_withPortResult hp hc s s.port s.result).symm
  · rw [exec_withPort]
    cases exec i s <;> rfl

/-- Settles O3. -/
theorem powerOnStatusView : Obligations.PowerOnStatusView := ⟨rfl, rfl, rfl⟩

/-- Settles O45: the power-on state is a cleared engine of the default capacity. -/
theorem resetMeetsTheInvariant : Obligations.ResetMeetsTheInvariant :=
  ⟨inv_clear (s := State.reset) (by decide), Memory.wf_reset⟩

end Sys2Proof.Machine

/-! The buffer's storage under one instruction and one step: where it is written, and its canonical form (spec 20_memory.md
R25, R26). -/

namespace Sys2Proof.Machine

/-- An accepted chunk writes nothing below `len` and nothing from its own end on (R26). -/
theorem accept_read_outside {s : State} {chunk : List Byte} {k : Nat} (h : k < s.len ∨ s.len + chunk.length ≤ k) :
    (s.accept chunk).acc.read k = s.acc.read k := by
  rw [accept_read, if_neg (by omega)]

/-- The bytes of an accepted chunk stand from `len` on, in order (R62). -/
theorem accept_read_stored (s : State) {chunk : List Byte} {j : Nat} (h : j < chunk.length) :
    (s.accept chunk).acc.read (s.len + j) = some chunk[j] := by
  rw [accept_read, if_pos (by omega), Nat.add_sub_cancel_left, List.getElem?_eq_getElem h]

/-- Settles O16: only an accepted chunk writes, and it ends at the new `len`, which room for it keeps at or below `CAP`. -/
theorem onlyAppendWritesAndOnlyAtLen : Obligations.OnlyAppendWritesAndOnlyAtLen := by
  intro i s t h hreset
  cases effect_of_exec h with
  | reset => exact absurd rfl hreset
  | appendError hne hc => simp [result_of_appendCause hc]
  | @appendAccepted chunk hne hc =>
    obtain ⟨-, -, -, hroom⟩ := (appendCause_none_iff chunk s).1 hc
    have hlen : (s.accept chunk).len = s.len + chunk.length := (accept_fields s chunk).1
    refine ⟨fun hno => absurd rfl (hno chunk), fun k hk => ?_, fun c hchunk _ => ?_⟩
    · rw [answer_len, hlen] at hk
      exact accept_read_outside (by omega)
    · cases hchunk
      exact ⟨hlen, fun j hj => accept_read_stored s hj⟩
  | decode | packSummary | cellVoltages => simp
  | reqPackSummary | reqCellVoltages => simp

/-- Every instruction keeps the canonical form of the memory (R25, log 5). -/
theorem wf_of_effect {i : Instr} {s t : State} (h : s.acc.wf = true) (he : Effect s i t) : t.acc.wf = true := by
  cases he with
  | reset => rfl
  | appendError => exact h
  | @appendAccepted chunk => exact accept_wf s chunk h
  | decode | packSummary | cellVoltages => exact h
  | reqPackSummary | reqCellVoltages => exact h

/-- Settles O47: an idle step keeps the state, any other runs one instruction on the same memory and capacity. -/
theorem memoryStaysCanonicalAndCapacityFixed : Obligations.MemoryStaysCanonicalAndCapacityFixed := by
  intro s t hs
  rcases step_cases hs with ⟨-, rfl⟩ | ⟨c, rest, i, -, -, hx⟩
  · exact ⟨id, rfl⟩
  · obtain ⟨hcap, -⟩ := instructionFrames i { s with port := rest } t hx
    exact ⟨fun hwf => wf_of_effect (s := { s with port := rest }) hwf (effect_of_exec hx), hcap⟩

end Sys2Proof.Machine

/-! Decoder and encoder undo each other (spec 30_encoding.md): when each of the three formats decodes, and that a whole frame is
the layout of its operands. -/

namespace Sys2Proof

theorem decodeOp_ok_iff (opCode : BitVec 3) (operand : List Byte) (i : Instr) :
    decodeOp opCode operand = .ok i ↔
      (opCode = 0 ∧ operand = [] ∧ i = .reset) ∨ (opCode = 1 ∧ operand ≠ [] ∧ i = .append operand) ∨
      (opCode = 2 ∧ operand = [] ∧ i = .decode) := by
  unfold decodeOp
  by_cases h0 : opCode = 0
  · subst h0; by_cases hl : operand = [] <;> simp [hl, eq_comm]
  · by_cases h1 : opCode = 1
    · subst h1; by_cases hl : operand = [] <;> simp [hl, eq_comm]
    · by_cases h2 : opCode = 2
      · subst h2; by_cases hl : operand = [] <;> simp [hl, eq_comm]
      · simp only [h0, h1, h2, if_false, false_and, or_self, reduceCtorEq]

theorem decodeRequest_ok_iff (bytes : List Byte) (i : Instr) :
    decodeRequest bytes = .ok i ↔
      (bytes = reqPackBytes ∧ i = .reqPackSummary) ∨ (bytes = reqCellsBytes ∧ i = .reqCellVoltages) := by
  have hne : reqCellsBytes ≠ reqPackBytes := by decide
  unfold decodeRequest
  by_cases hp : bytes = reqPackBytes
  · subst hp; simp [hne.symm, eq_comm]
  · by_cases hc : bytes = reqCellsBytes
    · subst hc; simp [hne, eq_comm]
    · simp [hp, hc]

theorem decodeFrameRow_ok_iff (F : List Byte) (i : Instr) :
    decodeFrameRow F = .ok i ↔
      (wholeFrame F = true ∧ byteAt F 0 = startMarker ∧ byteAt F 2 = statusOk) ∧
      ((byteAt F 1 = cmdPack ∧ i = .packSummary (frameOperands F)) ∨
        (byteAt F 1 = cmdCells ∧ i = .cellVoltages (frameOperands F))) := by
  have hne : cmdCells ≠ cmdPack := by decide
  unfold decodeFrameRow
  by_cases hw : wholeFrame F = true
  · by_cases hs : byteAt F 0 = startMarker
    · by_cases ho : byteAt F 2 = statusOk
      · by_cases hp : byteAt F 1 = cmdPack
        · simp [hw, hs, ho, hp, hne.symm, eq_comm]
        · by_cases hc : byteAt F 1 = cmdCells
          · simp [hw, hs, ho, hc, hne, eq_comm]
          · simp [hw, hs, ho, hp, hc]
      · simp [hw, hs, ho]
    · simp [hw, hs]
  · simp [hw]

/-- The operands are read back from the layout (R37). -/
theorem frameOperands_frameBytes (cmd : Byte) {f : Frame} (h : f.wf = true) :
    frameOperands (frameBytes cmd f) = f := by
  have hchecksum := Machine.received_frameBytes (cmd := cmd) h
  have hend := byteAt_frameBytes_tail cmd f 2
  rw [Machine.received] at hchecksum
  rw [frameOperands, frameBytes_payload h, hchecksum, payloadLength_frameBytes h,
    show 6 + f.payload.length = 4 + f.payload.length + 2 by omega, hend]
  rfl

/-- A whole frame is a header of four bytes, as many payload bytes as the fourth says, and three bytes behind them (R37, R38). -/
theorem wholeFrame_split {F : List Byte} (h : wholeFrame F = true) :
    ∃ (start cmd status n : Byte) (payload : List Byte) (hi lo last : Byte),
      F = [start, cmd, status, n] ++ payload ++ [hi, lo, last] ∧ payload.length = n.toNat := by
  obtain ⟨h4, hlen⟩ := (wholeFrame_iff F).1 h
  match F, h4, hlen with
  | start :: cmd :: status :: n :: rest, _, hlen =>
    have hrest : rest.length = n.toNat + 3 := by simpa [payloadLength, byteAt] using hlen
    obtain ⟨hi, lo, last, htail⟩ : ∃ hi lo last, rest.drop n.toNat = [hi, lo, last] :=
      List.length_eq_three.1 (by simp [hrest])
    refine ⟨start, cmd, status, n, rest.take n.toNat, hi, lo, last, ?_, by simp [hrest]⟩
    rw [← htail, List.append_assoc, List.take_append_drop]
    rfl

/-- Nothing of a whole frame is lost: with start marker and status as the FRAME rows fix them, it is the layout of its command
and of well-formed operands (R37 to R42). -/
theorem exists_eq_frameBytes {F : List Byte} (hw : wholeFrame F = true) (hs : byteAt F 0 = startMarker)
    (ho : byteAt F 2 = statusOk) : ∃ f : Frame, f.wf = true ∧ F = frameBytes (byteAt F 1) f := by
  obtain ⟨start, cmd, status, n, payload, hi, lo, last, rfl, hlen⟩ := wholeFrame_split hw
  obtain rfl : start = startMarker := hs
  obtain rfl : status = statusOk := ho
  refine ⟨{ payload := payload, checksum := be16 hi lo, endMarker := last }, ?_, ?_⟩
  · have := n.isLt
    simp only [Frame.wf, decide_eq_true_eq]
    omega
  · simp [frameBytes, byteAt, hlen, Machine.highByte_be16, Machine.lowByte_be16]

/-- The layout of the operands of a whole frame is that frame. -/
theorem frameBytes_frameOperands {F : List Byte} (hw : wholeFrame F = true) (hs : byteAt F 0 = startMarker)
    (ho : byteAt F 2 = statusOk) : frameBytes (byteAt F 1) (frameOperands F) = F := by
  obtain ⟨f, hf, hF⟩ := exists_eq_frameBytes hw hs ho
  have hops : frameOperands F = f := by rw [hF, frameOperands_frameBytes _ hf]
  rw [hops, ← hF]

/-- What the mask of a FRAME row fixes stands in every encoded frame (30_encoding.md section 8). -/
theorem frameBytes_header {cmd : Byte} {f : Frame} (h : f.wf = true) :
    wholeFrame (frameBytes cmd f) = true ∧ byteAt (frameBytes cmd f) 0 = startMarker ∧
      byteAt (frameBytes cmd f) 2 = statusOk :=
  ⟨wholeFrame_frameBytes h, byteAt_frameBytes_start cmd f, byteAt_frameBytes_status cmd f⟩

/-- Settles O49: one case per row; a FRAME row turns on reading its operands back from their layout. -/
theorem decodeOfEncodeIsTheInstruction : Obligations.DecodeOfEncodeIsTheInstruction := by
  intro i hi
  cases i with
  | reset => exact (decodeOp_ok_iff _ _ _).2 (.inl ⟨rfl, rfl, rfl⟩)
  | append chunk =>
    have hne : chunk ≠ [] := by simpa [Instr.wf] using hi
    exact (decodeOp_ok_iff _ _ _).2 (.inr (.inl ⟨rfl, hne, rfl⟩))
  | decode => exact (decodeOp_ok_iff _ _ _).2 (.inr (.inr ⟨rfl, rfl, rfl⟩))
  | packSummary f =>
    refine (decodeFrameRow_ok_iff _ _).2 ⟨frameBytes_header hi, .inl ⟨byteAt_frameBytes_command _ f, ?_⟩⟩
    rw [frameOperands_frameBytes _ hi]
  | cellVoltages f =>
    refine (decodeFrameRow_ok_iff _ _).2 ⟨frameBytes_header hi, .inr ⟨byteAt_frameBytes_command _ f, ?_⟩⟩
    rw [frameOperands_frameBytes _ hi]
  | reqPackSummary => exact (decodeRequest_ok_iff _ _).2 (.inl ⟨rfl, rfl⟩)
  | reqCellVoltages => exact (decodeRequest_ok_iff _ _).2 (.inr ⟨rfl, rfl⟩)

/-- Settles O50: one case per format; a frame is the layout of the operands read from it. -/
theorem encodeOfDecodeIsTheEncoding : Obligations.EncodeOfDecodeIsTheEncoding := by
  intro c i h
  cases c with
  | op opCode operand =>
    obtain ⟨rfl, rfl, rfl⟩ | ⟨rfl, -, rfl⟩ | ⟨rfl, rfl, rfl⟩ := (decodeOp_ok_iff _ _ _).1 h <;> rfl
  | frame F =>
    obtain ⟨⟨hw, hs, ho⟩, ⟨hcmd, rfl⟩ | ⟨hcmd, rfl⟩⟩ := (decodeFrameRow_ok_iff _ _).1 h
    · rw [encode, ← hcmd, frameBytes_frameOperands hw hs ho]
    · rw [encode, ← hcmd, frameBytes_frameOperands hw hs ho]
  | request bytes =>
    obtain ⟨rfl, rfl⟩ | ⟨rfl, rfl⟩ := (decodeRequest_ok_iff _ _).1 h <;> rfl

/-- Settles O51: the ten words, each decoded. -/
theorem tableWordsDecodeToTheirRows : Obligations.TableWordsDecodeToTheirRows :=
  ⟨rfl, rfl, rfl, rfl, rfl, rfl, rfl, rfl, rfl, rfl⟩

end Sys2Proof

/-! The numbers of causes and outcomes, and which instruction can hand out which of them (spec 30_encoding.md R50, R51). -/

namespace Sys2Proof.Machine

theorem Cause.code_ne_zero (c : Cause) : c.code ≠ 0 := by
  cases c <;> simp [Cause.code]

theorem Cause.code_toNat_le (c : Cause) : c.code.toNat ≤ 8 := by
  cases c <;> simp [Cause.code]

theorem AppendOutcome.code_toNat_le (o : AppendOutcome) : o.code.toNat ≤ 2 := by
  cases o <;> simp [AppendOutcome.code]

theorem Result.causeCode_of_cause {r : Result} {c : Cause} (h : r.cause = some c) : r.causeCode = c.code := by
  simp [Result.causeCode, h]

theorem Result.causeCode_of_no_cause {r : Result} (h : r.cause = none) : r.causeCode = 0 := by
  simp [Result.causeCode, h]

/-- The code 0 is free for "no cause" (R51). -/
theorem Result.causeCode_eq_zero_iff (r : Result) : r.causeCode = 0 ↔ r.cause = none := by
  cases h : r.cause with
  | none => simp [Result.causeCode_of_no_cause h]
  | some c => rw [Result.causeCode_of_cause h]; exact iff_of_false c.code_ne_zero nofun

theorem Result.causeCode_toNat_le (r : Result) : r.causeCode.toNat ≤ 8 := by
  cases h : r.cause with
  | none => simp [Result.causeCode_of_no_cause h]
  | some c => rw [Result.causeCode_of_cause h]; exact c.code_toNat_le

/-- Settles O19. -/
theorem causeAndOutcomeCodes : Obligations.CauseAndOutcomeCodes :=
  ⟨fun _ _ => rfl, rfl, rfl, fun _ => rfl, latches_iff, Result.causeCode_eq_zero_iff,
    fun _ _ => Result.causeCode_of_cause, Result.causeCode_toNat_le, AppendOutcome.code_toNat_le⟩

theorem appendOutcome_cases (s : State) : s.appendOutcome = .continuing ∨ s.appendOutcome = .frameComplete := by
  unfold State.appendOutcome
  split
  · exact .inr rfl
  · exact .inl rfl

/-- The pack-summary routine answers no record of the other kind (R104). -/
theorem packSummary_ok {F : List Byte} {r : DecodedRecord} (h : packSummary F = .ok r) : ∃ p, r = .packSummary p := by
  by_cases hN : payloadLength F < 23
  · rw [packSummary_short hN] at h
    cases h
  · rw [packSummary_long (by omega)] at h
    split at h
    · cases h
    · split at h
      · cases h
      · exact ⟨_, (Except.ok.inj h).symm⟩

/-- The cell-voltage routine answers no record of the other kind (R108). -/
theorem cellVoltages_ok {F : List Byte} {r : DecodedRecord} (h : cellVoltages F = .ok r) : ∃ mv, r = .cellVoltages mv := by
  obtain ⟨mv, hmv, -⟩ := cellVoltages_eq F
  exact ⟨mv, Except.ok.inj (h.symm.trans hmv)⟩

theorem extract_error {F : List Byte} {c : Cause} (h : extract F = .error c) : c = .truncated ∨ c = .unknownCommand := by
  unfold extract at h
  split at h
  · exact .inl (packSummary_error h)
  · split at h
    · exact absurd h (cellVoltages_ne_error F c)
    · exact .inr (Except.error.inj h).symm

/-- A routine behind the validation answers its record or its error, or a mismatch of two values that differ (R78). -/
theorem runValidated_result_cases (routine : List Byte → Except Cause DecodedRecord) (F : List Byte) (s : State) :
    (∃ r, routine F = .ok r ∧ (s.answerDecode (runValidated routine F)).result = .decode (.ok r)) ∨
    (∃ c, routine F = .error c ∧ (s.answerDecode (runValidated routine F)).result = c.result) ∨
    (∃ a b, a ≠ b ∧ (s.answerDecode (runValidated routine F)).result = .decode (.err (.checksumMismatch a b))) := by
  rw [runValidated_eq]
  split
  next =>
    cases hr : routine F with
    | ok r => exact .inl ⟨r, rfl, rfl⟩
    | error c => exact .inr (.inl ⟨c, rfl, rfl⟩)
  next hne => exact .inr (.inr ⟨received F, checksum F, Ne.symm hne, rfl⟩)

theorem execPackSummary_eq_of_next {f : Frame} {s t : State} (h : execPackSummary f s = .next t) :
    t = s.answerDecode (runValidated packSummary (frameBytes cmdPack f)) := by
  unfold execPackSummary at h
  split at h <;> cases h
  rfl

theorem execCellVoltages_eq_of_next {f : Frame} {s t : State} (h : execCellVoltages f s = .next t) :
    t = s.answerDecode (runValidated cellVoltages (frameBytes cmdCells f)) := by
  unfold execCellVoltages at h
  split at h <;> cases h
  rfl

/-- The results of `APPEND` (R50, R51). -/
theorem execAppend_result {chunk : List Byte} {s t : State} (h : execAppend chunk s = .next t) :
    t.result = .append .continuing ∨ t.result = .append .frameComplete ∨
      ∃ c ∈ [Cause.malformedStart, .bmsReportedFault, .bufferOverflow, .errorLatched], t.result = .append (.error c) := by
  obtain ⟨-, ⟨c, hc, rfl⟩ | ⟨-, rfl⟩⟩ := execAppend_cases h
  · refine .inr (.inr ⟨c, ?_, result_of_appendCause hc⟩)
    rcases appendCause_mem hc with rfl | rfl | rfl | rfl <;> simp
  · rcases appendOutcome_cases (s.accept chunk) with ho | ho
    · exact .inl (congrArg _ ho)
    · exact .inr (.inl (congrArg _ ho))

/-- The results of `DECODE` (R49, R51). -/
theorem execDecode_result {s t : State} (h : execDecode s = .next t) :
    (∃ r, t.result = .decode (.ok r)) ∨ t.result = .decode (.err .noFrame) ∨
      t.result = .decode (.err .unknownCommand) ∨ t.result = .decode (.err .truncated) ∨
      ∃ a b, a ≠ b ∧ t.result = .decode (.err (.checksumMismatch a b)) := by
  obtain ⟨-, rfl⟩ | ⟨-, F, -, -, rfl⟩ := execDecode_cases h
  · exact .inr (.inl rfl)
  · rw [decodeFrame]
    obtain ⟨r, -, hres⟩ | ⟨c, hc, hres⟩ | hmismatch := runValidated_result_cases extract F s
    · exact .inl ⟨r, hres⟩
    · obtain rfl | rfl := extract_error hc
      · exact .inr (.inr (.inr (.inl hres)))
      · exact .inr (.inr (.inl hres))
    · exact .inr (.inr (.inr (.inr hmismatch)))

/-- The results of `PACK_SUMMARY` (R104). -/
theorem execPackSummary_result {f : Frame} {s t : State} (h : execPackSummary f s = .next t) :
    (∃ p, t.result = .decode (.ok (.packSummary p))) ∨ t.result = .decode (.err .truncated) ∨
      ∃ a b, a ≠ b ∧ t.result = .decode (.err (.checksumMismatch a b)) := by
  rw [execPackSummary_eq_of_next h]
  obtain ⟨r, hr, hres⟩ | ⟨c, hc, hres⟩ | hmismatch := runValidated_result_cases packSummary (frameBytes cmdPack f) s
  · obtain ⟨p, rfl⟩ := packSummary_ok hr
    exact .inl ⟨p, hres⟩
  · obtain rfl := packSummary_error hc
    exact .inr (.inl hres)
  · exact .inr (.inr hmismatch)

/-- The results of `CELL_VOLTAGES`, which has no error of its own (R108). -/
theorem execCellVoltages_result {f : Frame} {s t : State} (h : execCellVoltages f s = .next t) :
    (∃ mv, t.result = .decode (.ok (.cellVoltages mv))) ∨
      ∃ a b, a ≠ b ∧ t.result = .decode (.err (.checksumMismatch a b)) := by
  rw [execCellVoltages_eq_of_next h]
  obtain ⟨r, hr, hres⟩ | ⟨c, hc, -⟩ | hmismatch := runValidated_result_cases cellVoltages (frameBytes cmdCells f) s
  · obtain ⟨mv, rfl⟩ := cellVoltages_ok hr
    exact .inl ⟨mv, hres⟩
  · exact absurd hc (cellVoltages_ne_error _ c)
  · exact .inr hmismatch

/-- Settles O18: the results of each instruction. -/
theorem eachResultBelongsToItsOperation : Obligations.EachResultBelongsToItsOperation := by
  intro i s t h
  cases i with
  | reset => cases h; rfl
  | append chunk => exact execAppend_result h
  | decode => exact execDecode_result h
  | packSummary f => exact execPackSummary_result h
  | cellVoltages f => exact execCellVoltages_result h
  | reqPackSummary => cases h; rfl
  | reqCellVoltages => cases h; rfl

end Sys2Proof.Machine

/-! `FEED`: the pieces of a byte string (spec 30_encoding.md R54). -/

namespace Sys2Proof.Machine

@[simp] theorem pieces_nil (k fuel : Nat) : pieces k fuel [] = [] := by
  cases fuel <;> rfl

theorem pieces_succ {bytes : List Byte} (h : bytes ≠ []) (k fuel : Nat) :
    pieces k (fuel + 1) bytes = bytes.take k :: pieces k fuel (bytes.drop k) := by
  cases bytes with
  | nil => exact absurd rfl h
  | cons b bs => rfl

/-- The pieces give the bytes back in order, for as much fuel as there are bytes: each piece takes one at least. -/
theorem pieces_flatten {k : Nat} (hk : 1 ≤ k) {fuel : Nat} {bytes : List Byte} (hf : bytes.length ≤ fuel) :
    (pieces k fuel bytes).flatten = bytes := by
  induction fuel generalizing bytes with
  | zero => rw [List.eq_nil_of_length_eq_zero (l := bytes) (by omega)]; rfl
  | succ fuel ih =>
    by_cases hb : bytes = []
    · simp [hb]
    · have hrest : (bytes.drop k).length ≤ fuel := by rw [List.length_drop]; omega
      rw [pieces_succ hb, List.flatten_cons, ih hrest, List.take_append_drop]

/-- One piece more than for what is left behind the first one: the recurrence of `ceil(m / k)`. -/
theorem ceilDiv_drop {k m : Nat} (hk : 1 ≤ k) (hm : 1 ≤ m) : (m - k + k - 1) / k + 1 = (m + k - 1) / k := by
  rw [← Nat.add_div_right _ hk]
  by_cases h : k ≤ m
  · congr 1; omega
  · rw [Nat.div_eq_of_lt_le (k := 1) (by omega) (by omega), Nat.div_eq_of_lt_le (k := 1) (by omega) (by omega)]

theorem pieces_length {k : Nat} (hk : 1 ≤ k) {fuel : Nat} {bytes : List Byte} (hf : bytes.length ≤ fuel) :
    (pieces k fuel bytes).length = (bytes.length + k - 1) / k := by
  induction fuel generalizing bytes with
  | zero =>
    rw [List.eq_nil_of_length_eq_zero (l := bytes) (by omega), pieces_nil]
    exact (Nat.div_eq_of_lt (by simp; omega)).symm
  | succ fuel ih =>
    by_cases hb : bytes = []
    · rw [hb, pieces_nil]
      exact (Nat.div_eq_of_lt (by simp; omega)).symm
    · have hpos : 1 ≤ bytes.length := List.length_pos_iff.2 hb
      have hrest : (bytes.drop k).length ≤ fuel := by rw [List.length_drop]; omega
      rw [pieces_succ hb, List.length_cons, ih hrest, List.length_drop, ceilDiv_drop hk hpos]

/-- Piece `j` begins at byte `j * k`, and none is empty. -/
theorem pieces_getElem? {k : Nat} (hk : 1 ≤ k) {fuel j : Nat} {bytes c : List Byte}
    (hc : (pieces k fuel bytes)[j]? = some c) : c = (bytes.drop (j * k)).take k ∧ c ≠ [] := by
  induction fuel generalizing bytes j with
  | zero => simp [pieces] at hc
  | succ fuel ih =>
    by_cases hb : bytes = []
    · simp [hb] at hc
    · rw [pieces_succ hb] at hc
      cases j with
      | zero =>
        obtain rfl : bytes.take k = c := by simpa using hc
        have hk0 : k ≠ 0 := by omega
        simp [hb, hk0]
      | succ j =>
        obtain ⟨heq, hne⟩ := ih (j := j) hc
        rw [List.drop_drop, show k + j * k = (j + 1) * k by ring] at heq
        exact ⟨heq, hne⟩

/-- Settles O52: the fuel of `feed` is the number of bytes. -/
theorem feedSplitsIntoPieces : Obligations.FeedSplitsIntoPieces :=
  fun bytes k hk => ⟨pieces k bytes.length bytes, rfl, pieces_flatten hk le_rfl, pieces_length hk le_rfl,
    fun _ _ => pieces_getElem? hk⟩

end Sys2Proof.Machine

/-! Field values, the two requests, and what is refused by name (spec 30_encoding.md R45, R47, R52, R53). -/

namespace Sys2Proof.Machine

/-- Settles O21: a read inside the payload is the pair, or the byte, at its index. -/
theorem pairsAreBigEndian : Obligations.PairsAreBigEndian := by
  intro F k
  refine ⟨toNat_be16 _ _, fun v hv => ?_, fun b hb => ((u8_ok_iff F k b).1 hb).2⟩
  obtain ⟨-, rfl⟩ := (u16_ok_iff F k v).1 hv
  exact ⟨toNat_be16 _ _, Nat.le_of_lt_succ (BitVec.isLt _)⟩

theorem unpackDate_year (d : Half) : (unpackDate d).year = 2000 + d.toNat / 512 := by
  have := d.isLt
  simp only [unpackDate, BitVec.extractLsb'_toNat, Nat.shiftRight_eq_div_pow]
  omega

theorem unpackDate_month (d : Half) : (unpackDate d).month = d.toNat / 32 % 16 := by
  simp only [unpackDate, BitVec.extractLsb'_toNat, Nat.shiftRight_eq_div_pow]

theorem unpackDate_day (d : Half) : (unpackDate d).day = d.toNat % 32 := by
  simp only [unpackDate, BitVec.extractLsb'_toNat, Nat.shiftRight_zero]

/-- Settles O37: the ranges are those of 7, 4 and 5 bits. -/
theorem packedDateSubFields : Obligations.PackedDateSubFields := by
  intro d
  have := d.isLt
  rw [unpackDate_year, unpackDate_month, unpackDate_day]
  refine ⟨rfl, rfl, rfl, rfl, ?_, ?_, ?_⟩ <;> omega

/-- A first chunk that begins with the start marker and carries a nonzero status byte is a reported fault (R57 to R59). -/
theorem appendCause_of_status {chunk : List Byte} {s : State} (hflag : s.errorFlag = false) (hlen : s.len = 0)
    (hhead : chunk.head? = some startMarker) (hstatus : carriesFault chunk 0 = true) :
    appendCause chunk s = some .bmsReportedFault := by
  simp [appendCause, hflag, hlen, hhead, hstatus]

/-- A request frame fed to the engine: its third byte, the command, stands where a response has its status (R53). -/
theorem request_is_reported_fault {bytes : List Byte} (h : bytes ∈ [reqPackBytes, reqCellsBytes]) {s : State}
    (hflag : s.errorFlag = false) (hlen : s.len = 0) : appendCause bytes s = some .bmsReportedFault := by
  have hbytes : ∀ bytes ∈ [reqPackBytes, reqCellsBytes],
      bytes.head? = some startMarker ∧ carriesFault bytes 0 = true := by decide
  obtain ⟨hhead, hstatus⟩ := hbytes bytes h
  exact appendCause_of_status hflag hlen hhead hstatus

/-- The check bytes of a request are not those of a response: the response rule covers its zero length byte alone (R53). -/
theorem request_checksums : ∀ bytes ∈ [reqPackBytes, reqCellsBytes],
    (received bytes).toNat = 0x10000 - ((byteAt bytes 2).toNat + (byteAt bytes 3).toNat) ∧
      checksum bytes = 0 ∧ validate bytes = false := by decide

theorem ne_nil_of_mem_requests {bytes : List Byte} (h : bytes ∈ [reqPackBytes, reqCellsBytes]) : bytes ≠ [] := by
  rintro rfl
  exact absurd h (by decide)

/-- Settles O39: the requests' own bytes are computed; fed to `APPEND` they fail the status test, which latches. -/
theorem requestFramesPassTheEngineBy : Obligations.RequestFramesPassTheEngineBy := by
  refine ⟨fun s => ⟨rfl, rfl⟩, fun bytes h => ?_⟩
  obtain ⟨hreceived, hchecksum, hvalidate⟩ := request_checksums bytes h
  refine ⟨hreceived, hchecksum, hvalidate, fun s hflag hlen => ?_⟩
  have hlatch : s.raise .bmsReportedFault
      = { s with errorFlag := true, result := .append (.error .bmsReportedFault) } := by
    simp [State.raise, Cause.latches, Cause.result]
  rw [← hlatch]
  exact execAppend_of_cause (ne_nil_of_mem_requests h) (request_is_reported_fault h hflag hlen)

theorem decodeOp_of_reserved {opCode : BitVec 3} (h : 3 ≤ opCode.toNat) (operand : List Byte) :
    decodeOp opCode operand = .error .reservedOpCode := by
  have hne : ∀ k : BitVec 3, k.toNat < 3 → opCode ≠ k := by
    rintro k hk rfl
    omega
  rw [decodeOp, if_neg (hne 0 (by decide)), if_neg (hne 1 (by decide)), if_neg (hne 2 (by decide))]

theorem decodeOp_of_stray {opCode : BitVec 3} {operand : List Byte} (h : opCode = 0 ∨ opCode = 2) (hne : operand ≠ []) :
    decodeOp opCode operand = .error .strayOperand := by
  rcases h with rfl | rfl <;> simp [decodeOp, hne]

theorem decodeRequest_of_other {bytes : List Byte} (hp : bytes ≠ reqPackBytes) (hc : bytes ≠ reqCellsBytes) :
    decodeRequest bytes = .error .notARequest := by
  rw [decodeRequest, if_neg hp, if_neg hc]

/-- What the decoder rejects on the port stops the engine under the rejection's name (log 7). -/
theorem step_rejects {s : State} {c : Code} {rest : List Code} {why : Rejection} (hp : s.port = c :: rest)
    (hc : ∀ F, c ≠ .frame F) (hd : Sys2Proof.decode c = .error why) : step s = .refused (.rejected why) :=
  step_of_port_error hp (by rw [decodePort_eq hc, hd])

theorem execPackSummary_of_long {f : Frame} (h : 255 < f.payload.length) (s : State) :
    execPackSummary f s = .refused .payloadTooLong := by
  have hwf : f.wf = false := by simp [Frame.wf, h]
  simp [execPackSummary, hwf]

theorem execCellVoltages_of_long {f : Frame} (h : 255 < f.payload.length) (s : State) :
    execCellVoltages f s = .refused .payloadTooLong := by
  have hwf : f.wf = false := by simp [Frame.wf, h]
  simp [execCellVoltages, hwf]

/-- Settles O43: each rejection of the decoder, then the two terms without an encoding. -/
theorem whatIsNoOperationIsRefused : Obligations.WhatIsNoOperationIsRefused := by
  intro s rest
  refine ⟨?reserved, ?emptyChunk, ?stray, ?request, ?frame, rfl, ?tooLong⟩
  case reserved => exact fun _ l h hp => step_rejects hp (by simp) (decodeOp_of_reserved h l)
  case emptyChunk => exact fun hp => step_rejects hp (by simp) rfl
  case stray => exact fun _ _ h hne hp => step_rejects hp (by simp) (decodeOp_of_stray h hne)
  case request => exact fun _ hpack hcells hp => step_rejects hp (by simp) (decodeRequest_of_other hpack hcells)
  case frame => exact fun _ hp => step_of_port_error hp rfl
  case tooLong => exact fun _ h => ⟨execPackSummary_of_long h s, execCellVoltages_of_long h s⟩

end Sys2Proof.Machine

/-! `RESET` and `APPEND` as the reassembler runs them (spec 40_reassembler.md): the seven steps in the spec's spelling, the phase
table. -/

namespace Sys2Proof.Machine

/-- The byte carried for an index, or else an older value: the form in which the spec states steps 5 and 6 (R61, R62). -/
theorem carried_or_eq (chunk : List Byte) (n k : Nat) (old : Option Byte) :
    (carried chunk n k).or old = if n ≤ k ∧ k < n + chunk.length then chunk[k - n]? else old := by
  rw [carried_eq]
  split
  · rw [List.getElem?_eq_getElem (by omega)]; rfl
  · rfl

/-- Step 2 fails (R58). -/
abbrev StartFails (chunk : List Byte) (s : State) : Prop := s.len = 0 ∧ chunk[0]? ≠ some 0xDD

/-- Step 3 fails (R59). -/
abbrev StatusFails (chunk : List Byte) (s : State) : Prop :=
  s.len ≤ 2 ∧ 2 < s.len + chunk.length ∧ chunk[2 - s.len]? ≠ some 0x00

/-- Step 4 fails (R60). -/
abbrev RoomFails (chunk : List Byte) (s : State) : Prop := s.len + chunk.length > s.cap

theorem carriesFault_eq_true_iff (chunk : List Byte) (s : State) :
    carriesFault chunk s.len = true ↔ StatusFails chunk s := by
  unfold carriesFault StatusFails
  rw [carried_eq]
  by_cases hin : s.len ≤ 2 ∧ 2 < s.len + chunk.length
  · rw [if_pos hin, List.getElem?_eq_getElem (by omega)]
    simp [hin, statusOk]
  · rw [if_neg hin]
    simp only [Bool.false_eq_true, false_iff]
    exact fun h => hin ⟨h.1, h.2.1⟩

/-- The four tests with their outcomes, over the chunk's own indices (R56). -/
theorem appendCause_eq (chunk : List Byte) (s : State) :
    appendCause chunk s =
      if s.errorFlag = true then some .errorLatched
      else if StartFails chunk s then some .malformedStart
      else if StatusFails chunk s then some .bmsReportedFault
      else if RoomFails chunk s then some .bufferOverflow
      else none := by
  simp only [appendCause, carriesFault_eq_true_iff, List.head?_eq_getElem?, startMarker]

/-- The cause names the first test that fails (R56, R119). -/
theorem appendCause_some_cases {chunk : List Byte} {s : State} {c : Cause} (h : appendCause chunk s = some c) :
    (s.errorFlag = true ∧ c = .errorLatched) ∨
    (¬ s.errorFlag = true ∧ StartFails chunk s ∧ c = .malformedStart) ∨
    (¬ s.errorFlag = true ∧ ¬ StartFails chunk s ∧ StatusFails chunk s ∧ c = .bmsReportedFault) ∨
    (¬ s.errorFlag = true ∧ ¬ StartFails chunk s ∧ ¬ StatusFails chunk s ∧ RoomFails chunk s ∧
      c = .bufferOverflow) := by
  rw [appendCause_eq] at h
  split_ifs at h with hflag hstart hstatus hroom
  all_goals cases h
  · exact .inl ⟨hflag, rfl⟩
  · exact .inr (.inl ⟨hflag, hstart, rfl⟩)
  · exact .inr (.inr (.inl ⟨hflag, hstart, hstatus, rfl⟩))
  · exact .inr (.inr (.inr ⟨hflag, hstart, hstatus, hroom, rfl⟩))

/-- `appendCause_none_iff` with every test over the chunk's own indices. -/
theorem appendCause_eq_none_iff (chunk : List Byte) (s : State) :
    appendCause chunk s = none ↔
      ¬ s.errorFlag = true ∧ ¬ StartFails chunk s ∧ ¬ StatusFails chunk s ∧ ¬ RoomFails chunk s := by
  rw [appendCause_eq]
  constructor
  · intro h
    split_ifs at h with hflag hstart hstatus hroom
    exact ⟨hflag, hstart, hstatus, hroom⟩
  · rintro ⟨hflag, hstart, hstatus, hroom⟩
    rw [if_neg hflag, if_neg hstart, if_neg hstatus, if_neg hroom]

/-- A latching cause sets the latch and answers (R120). -/
theorem raise_of_latches {c : Cause} (h : c.latches = true) (s : State) :
    s.raise c = { s with errorFlag := true, result := c.result } := by
  simp [State.raise, h]

theorem appendOutcome_of_complete {s : State} (h : s.complete = true) : s.appendOutcome = .frameComplete :=
  if_pos h

theorem appendOutcome_of_not_complete {s : State} (h : ¬ s.complete = true) : s.appendOutcome = .continuing :=
  if_neg h

/-- The completion test, written over the fields (R63). -/
theorem appendOutcome_eq (s : State) : s.appendOutcome =
    if s.expectedLength.map (fun n => n.toNat + 7) = some s.len then .frameComplete else .continuing := by
  simp [State.appendOutcome, State.complete, State.frameLength, Config.overhead]

/-- Settles O4: the next state is the effect of `APPEND`, one branch of the statement for each test that can fail and one for
acceptance. -/
theorem appendRunsItsSevenSteps : Obligations.AppendRunsItsSevenSteps := by
  intro chunk s hne
  obtain ⟨t, ht⟩ := execAppend_completes hne s
  refine ⟨rfl, t, ht, ?_⟩
  cases effect_of_exec (i := .append chunk) ht with
  | appendError _ hc =>
    obtain ⟨hflag, rfl⟩ | ⟨hflag, hstart, rfl⟩ | ⟨hflag, hstart, hstatus, rfl⟩ |
      ⟨hflag, hstart, hstatus, hroom, rfl⟩ := appendCause_some_cases hc
    · rw [if_pos hflag]
      exact raise_eq_answer rfl s
    · rw [if_neg hflag, if_pos hstart]
      exact raise_eq_answer rfl s
    · rw [if_neg hflag, if_neg hstart, if_pos hstatus]
      exact raise_of_latches rfl s
    · rw [if_neg hflag, if_neg hstart, if_neg hstatus, if_pos hroom]
      exact raise_of_latches rfl s
  | appendAccepted _ hc =>
    obtain ⟨hflag, hstart, hstatus, hroom⟩ := (appendCause_eq_none_iff chunk s).1 hc
    obtain ⟨hlen, hexp, hflag', hcap, hport, -⟩ := accept_fields s chunk
    rw [if_neg hflag, if_neg hstart, if_neg hstatus, if_neg hroom]
    refine ⟨hlen, by simpa [hflag'] using hflag, hcap, hport, ?_, accept_read s chunk, ?_⟩
    · exact hexp.trans (carried_or_eq chunk s.len 3 s.expectedLength)
    · exact congrArg Result.append (appendOutcome_eq (s.accept chunk))

/-- Settles O5: the chunk fails none of the four tests, so it is accepted, which stores and then tests. -/
theorem acceptedChunkIsStoredAndTestedOnce : Obligations.AcceptedChunkIsStoredAndTestedOnce := by
  intro chunk s hne hflag hstart hstatus hroom
  have hc : appendCause chunk s = none := (appendCause_eq_none_iff chunk s).2
    ⟨by simp [hflag], fun h => h.2 (hstart h.1), fun h => h.2.2 (hstatus h.1 h.2.1), not_lt.2 hroom⟩
  obtain ⟨hlen, -, hflag', hcap, hport, -⟩ := accept_fields s chunk
  have htest := complete_iff (s.accept chunk)
  refine ⟨_, execAppend_of_no_cause hne hc, hlen, fun j hj => accept_read_stored s hj,
    fun k hk => accept_read_outside hk, fun h => ?_, fun h => ?_, hflag'.trans hflag, hcap, hport⟩
  · exact congrArg Result.append (appendOutcome_of_complete (htest.2 h))
  · exact congrArg Result.append (appendOutcome_of_not_complete (mt htest.1 h))

/-- A reported fault is found in a chunk that reaches frame index 2, so at most two bytes were stored before (R59). -/
theorem len_le_two_of_reportedFault {chunk : List Byte} {s : State}
    (h : appendCause chunk s = some .bmsReportedFault) : s.len ≤ 2 := by
  rcases appendCause_some_cases h with ⟨-, hc⟩ | ⟨-, -, hc⟩ | ⟨-, -, hstatus, -⟩ | ⟨-, -, -, -, hc⟩
  · cases hc
  · cases hc
  · exact hstatus.1
  · cases hc

/-- Settles O9: only a taken error has an error for its result, and taking one changes latch and result alone. -/
theorem erroringAppendStoresNothing : Obligations.ErroringAppendStoresNothing := by
  intro chunk s t c h hres
  cases effect_of_exec h with
  | @appendError _ d _ hc =>
    have hd : d = c := by simpa [result_of_appendCause hc] using hres
    subst hd
    refine ⟨rfl, rfl, rfl, rfl, rfl, by simp [latches_iff], fun hfault => ?_⟩
    exact len_le_two_of_reportedFault (s := s) (hfault ▸ hc)
  | appendAccepted => exact absurd hres (by simp [appendOutcome_ne_error])

/-- Settles O1: the next state is the cleared engine, which is not ready. -/
theorem resetClearsTheEngineInEveryState : Obligations.ResetClearsTheEngineInEveryState := by
  refine ⟨rfl, fun s => ⟨s.clear, rfl, rfl, rfl, rfl, rfl, rfl, rfl, rfl, rfl, ?_⟩⟩
  exact (execDecode_of_not_ready rfl).trans (congrArg _ (raise_eq_answer rfl s.clear))

theorem phase_of_latched {s : State} (h : s.errorFlag = true) : s.phase = .error := by
  simp [State.phase, h]

theorem phase_of_empty {s : State} (hflag : ¬ s.errorFlag = true) (h : s.len = 0) : s.phase = .idle := by
  simp [State.phase, hflag, h]

theorem phase_of_header {s : State} (hflag : ¬ s.errorFlag = true) (hpos : 1 ≤ s.len) (h : s.len ≤ 3) :
    s.phase = .header := by
  rw [State.phase, if_neg hflag, if_neg (by omega), if_pos h]

/-- Behind the header the phase compares `len` with the declared length (R16). -/
theorem phase_of_known {s : State} {n : Byte} (hflag : ¬ s.errorFlag = true) (h : 4 ≤ s.len)
    (hn : s.expectedLength = some n) :
    s.phase = if s.len < n.toNat + 7 then .body else if s.len = n.toNat + 7 then .complete else .overrun := by
  rw [State.phase, if_neg hflag, if_neg (by omega), if_neg (by omega)]
  simp [State.frameLength, hn, Config.overhead]

/-- The same comparison is the completion test (R63). -/
theorem appendOutcome_of_known {s : State} {n : Byte} (hn : s.expectedLength = some n) :
    s.appendOutcome = if s.len = n.toNat + 7 then .frameComplete else .continuing := by
  simp [appendOutcome_eq, hn, eq_comm]

/-- The three rows of the phase table for a chunk behind which the length byte is stored (R66). -/
theorem phase_outcome_of_known {s : State} {n : Byte} (hflag : ¬ s.errorFlag = true) (h : 4 ≤ s.len)
    (hn : s.expectedLength = some n) :
    if s.len < n.toNat + 7 then s.phase = .body ∧ s.appendOutcome = .continuing
    else if s.len = n.toNat + 7 then s.phase = .complete ∧ s.appendOutcome = .frameComplete
    else s.phase = .overrun ∧ s.appendOutcome = .continuing := by
  rw [phase_of_known hflag h hn, appendOutcome_of_known hn]
  split_ifs with hlt heq
  · omega
  · exact ⟨rfl, rfl⟩
  · exact ⟨rfl, rfl⟩
  · exact ⟨rfl, rfl⟩

/-- The completion test fails while the length is unknown (R63). -/
theorem appendOutcome_of_unknown {s : State} (h : s.expectedLength = none) : s.appendOutcome = .continuing := by
  simp [appendOutcome_eq, h]

/-- R15 item 2, for the value of the length byte. -/
theorem expectedLength_of_short {s : State} (h : Inv s) (hlen : s.len ≤ 3) : s.expectedLength = none := by
  rw [← Option.not_isSome_iff_eq_none]
  exact fun hk => absurd (h.known.1 hk) (by omega)

theorem expectedLength_of_long {s : State} (h : Inv s) (hlen : 4 ≤ s.len) : ∃ n, s.expectedLength = some n :=
  Option.isSome_iff_exists.1 (h.known.2 hlen)

/-- The phases of a sound state, by the number of bytes stored (R15 item 2, R16). -/
theorem phase_cases {s : State} (h : Inv s) (hflag : ¬ s.errorFlag = true) :
    (s.len = 0 ∧ s.phase = .idle) ∨ (1 ≤ s.len ∧ s.len ≤ 3 ∧ s.phase = .header) ∨
    (4 ≤ s.len ∧ ∃ n, s.expectedLength = some n ∧
      ((s.len < n.toNat + 7 ∧ s.phase = .body) ∨
        (n.toNat + 7 ≤ s.len ∧ (s.phase = .complete ∨ s.phase = .overrun)))) := by
  obtain h0 | ⟨h1, h3⟩ | h4 : s.len = 0 ∨ (1 ≤ s.len ∧ s.len ≤ 3) ∨ 4 ≤ s.len := by omega
  · exact .inl ⟨h0, phase_of_empty hflag h0⟩
  · exact .inr (.inl ⟨h1, h3, phase_of_header hflag h1 h3⟩)
  · obtain ⟨n, hn⟩ := expectedLength_of_long h h4
    have hphase := phase_of_known hflag h4 hn
    refine .inr (.inr ⟨h4, n, hn, ?_⟩)
    split_ifs at hphase with hlt heq
    · exact .inl ⟨hlt, hphase⟩
    · exact .inr ⟨by omega, .inl hphase⟩
    · exact .inr ⟨by omega, .inr hphase⟩

theorem phase_ne_error {s : State} (h : Inv s) (hflag : ¬ s.errorFlag = true) : s.phase ≠ .error := by
  rcases phase_cases h hflag with ⟨-, hp⟩ | ⟨-, -, hp⟩ | ⟨-, _, -, ⟨-, hp⟩ | ⟨-, hp | hp⟩⟩ <;> simp [hp]

theorem phase_eq_idle_iff {s : State} (h : Inv s) (hflag : ¬ s.errorFlag = true) : s.phase = .idle ↔ s.len = 0 := by
  refine ⟨fun hidle => ?_, phase_of_empty hflag⟩
  rcases phase_cases h hflag with ⟨h0, -⟩ | ⟨-, -, hp⟩ | ⟨-, _, -, ⟨-, hp⟩ | ⟨-, hp | hp⟩⟩
  · exact h0
  all_goals simp [hp] at hidle

theorem phase_idle_or_header {s : State} (hflag : ¬ s.errorFlag = true) (h : s.len ≤ 3) :
    s.phase = .idle ∨ s.phase = .header := by
  obtain h0 | hpos : s.len = 0 ∨ 1 ≤ s.len := by omega
  · exact .inl (phase_of_empty hflag h0)
  · exact .inr (phase_of_header hflag hpos h)

/-- A chunk stored behind a known length byte ends in the phase and outcome of the new `len` (R66). -/
theorem phase_outcome_of_accept {chunk : List Byte} {s : State} {n : Byte} (hflag : ¬ s.errorFlag = true)
    (h : 4 ≤ s.len + chunk.length) (hn : (s.accept chunk).expectedLength = some n) :
    if s.len + chunk.length < n.toNat + 7 then
      (s.accept chunk).phase = .body ∧ (s.accept chunk).appendOutcome = .continuing
    else if s.len + chunk.length = n.toNat + 7 then
      (s.accept chunk).phase = .complete ∧ (s.accept chunk).appendOutcome = .frameComplete
    else (s.accept chunk).phase = .overrun ∧ (s.accept chunk).appendOutcome = .continuing := by
  obtain ⟨hlen, -, hflag', -, -, -⟩ := accept_fields s chunk
  rw [← hlen] at h ⊢
  exact phase_outcome_of_known (hflag'.symm ▸ hflag) h hn

/-- A chunk stored without reaching the length byte leaves the engine in the header (R66). -/
theorem phase_outcome_of_accept_short {chunk : List Byte} {s : State} (h : Inv s) (hne : chunk ≠ [])
    (hc : appendCause chunk s = none) (hshort : s.len + chunk.length ≤ 3) :
    (s.accept chunk).phase = .header ∧ (s.accept chunk).appendOutcome = .continuing := by
  have hpos : 1 ≤ chunk.length := List.length_pos_iff.2 hne
  obtain ⟨hflag, -⟩ := (appendCause_eq_none_iff chunk s).1 hc
  obtain ⟨hlen, -, hflag', -⟩ := accept_fields s chunk
  exact ⟨phase_of_header (hflag'.symm ▸ hflag) (by omega) (by omega),
    appendOutcome_of_unknown (expectedLength_of_short (inv_accept h hc) (by omega))⟩

/-- Behind the header a chunk carries no length byte (R61). -/
theorem accept_expectedLength_of_long {s : State} (h : 4 ≤ s.len) (chunk : List Byte) :
    (s.accept chunk).expectedLength = s.expectedLength := by
  obtain ⟨-, hexp, -⟩ := accept_fields s chunk
  rw [hexp, carried_of_lt (by omega), Option.none_or]

/-- A chunk that reaches index 3 from the header carries the length byte (R61). -/
theorem accept_expectedLength_of_reached {s : State} {chunk : List Byte} (h : s.len ≤ 3)
    (hreach : 3 < s.len + chunk.length) : (s.accept chunk).expectedLength = chunk[3 - s.len]? := by
  obtain ⟨-, hexp, -⟩ := accept_fields s chunk
  rw [hexp, carried_or_eq, if_pos ⟨h, hreach⟩]

@[simp] theorem answer_phase (s : State) (r : Result) : (s.answer r).phase = s.phase := rfl

/-- Settles O10: in a sound state the phases say which of the four tests can fail; a stored chunk ends as the new `len`
compares with the length byte, known before or carried by the chunk. -/
theorem appendPhaseTransitions : Obligations.AppendPhaseTransitions := by
  intro chunk s h hne
  have hpos : 1 ≤ chunk.length := List.length_pos_iff.2 hne
  by_cases hflag : s.errorFlag = true
  · refine ⟨_, execAppend_of_cause hne (appendCause_of_latched hflag chunk), ?_⟩
    rw [if_pos (phase_of_latched hflag)]
    exact ⟨phase_of_latched (by simp [hflag]), rfl⟩
  have hstartRow : (s.phase = .idle ∧ chunk[0]? ≠ some 0xDD) ↔ StartFails chunk s :=
    and_congr_left' (phase_eq_idle_iff h hflag)
  have hstatusRow : ((s.phase = .idle ∨ s.phase = .header) ∧ 2 < s.len + chunk.length ∧ s.len ≤ 2 ∧
      chunk[2 - s.len]? ≠ some 0x00) ↔ StatusFails chunk s :=
    ⟨fun ⟨_, hreach, hlen, hbyte⟩ => ⟨hlen, hreach, hbyte⟩,
      fun ⟨hlen, hreach, hbyte⟩ => ⟨phase_idle_or_header hflag (by omega), hreach, hlen, hbyte⟩⟩
  obtain ⟨t, ht⟩ := execAppend_completes hne s
  refine ⟨t, ht, ?_⟩
  rw [if_neg (phase_ne_error h hflag), if_congr hstartRow rfl rfl, if_congr hstatusRow rfl rfl]
  cases effect_of_exec (i := .append chunk) ht with
  | appendError _ hc =>
    obtain ⟨hlatched, -⟩ | ⟨-, hstart, rfl⟩ | ⟨-, hstart, hstatus, rfl⟩ | ⟨-, hstart, hstatus, hroom, rfl⟩ :=
      appendCause_some_cases hc
    · exact absurd hlatched hflag
    · rw [if_pos hstart]
      exact ⟨phase_of_empty (by simpa [Cause.latches] using hflag) hstart.1, rfl⟩
    · rw [if_neg hstart, if_pos hstatus]
      exact ⟨phase_of_latched (by simp [Cause.latches]), rfl⟩
    · rw [if_neg hstart, if_neg hstatus, if_pos hroom]
      exact ⟨phase_of_latched (by simp [Cause.latches]), rfl⟩
  | appendAccepted _ hc =>
    obtain ⟨-, hstart, hstatus, hroom⟩ := (appendCause_eq_none_iff chunk s).1 hc
    rw [if_neg hstart, if_neg hstatus, if_neg hroom]
    simp only [answer_phase, answer_result, Result.append.injEq]
    by_cases h3 : s.len ≤ 3
    · have hearly := phase_idle_or_header hflag h3
      rw [if_neg (by rcases hearly with hp | hp <;> simp [hp])]
      by_cases hshort : s.len + chunk.length ≤ 3
      · rw [if_pos hshort]
        exact phase_outcome_of_accept_short h hne hc hshort
      · have hbyte : chunk[3 - s.len]? = some chunk[3 - s.len] := List.getElem?_eq_getElem (by omega)
        rw [if_neg hshort, if_neg (by rcases hearly with hp | hp <;> simp [hp]), hbyte]
        exact ⟨_, rfl, phase_outcome_of_accept hflag (by omega)
          ((accept_expectedLength_of_reached h3 (by omega)).trans hbyte)⟩
    · obtain ⟨n, hn⟩ := expectedLength_of_long h (by omega)
      have hrow := phase_outcome_of_accept hflag (by omega)
        ((accept_expectedLength_of_long (by omega) chunk).trans hn)
      have hphase := phase_of_known hflag (by omega) hn
      by_cases hend : n.toNat + 7 ≤ s.len
      · rw [if_pos (by rw [hphase, if_neg (by omega)]; split <;> simp)]
        rwa [if_neg (by omega), if_neg (by omega)] at hrow
      · rw [if_pos (by omega)] at hphase
        rw [hphase, if_neg (by simp), if_neg (by omega), if_pos rfl]
        exact ⟨n, hn, hrow⟩

end Sys2Proof.Machine

/-! Runs of appends: over one frame, whose bytes the engine then holds (R67), and behind one, without a `RESET` (R128). -/

namespace Sys2Proof.Machine

/-- A chunk on the port is appended by the next step (R49, R56). -/
theorem step_append {s : State} {chunk : List Byte} {rest : List Code}
    (hp : s.port = encode (.append chunk) :: rest) (hne : chunk ≠ []) :
    step s = execAppend chunk { s with port := rest } :=
  step_of_port hp (decodePort_of_decode (by simp [encode])
    (decodeOfEncodeIsTheInstruction (.append chunk) (by simpa [Instr.wf] using hne)))

/-- What a frame needs to be reassembled: start marker, status byte and a length byte that tells its length (R38 to R42). The
command, the payload and the checksum are not looked at. -/
structure Reassemblable (F : List Byte) (N : Byte) : Prop where
  start : F[0]? = some 0xDD
  status : F[2]? = some 0x00
  lengthByte : F[3]? = some N
  length : F.length = N.toNat + 7

/-- The engine is unlatched and holds exactly the bytes `P`, the length byte known as soon as it is among them. -/
structure Holds (s : State) (P : List Byte) : Prop where
  len : s.len = P.length
  read : ∀ k, s.acc.read k = P[k]?
  expected : s.expectedLength = P[3]?
  unlatched : s.errorFlag = false

/-- The bytes held are the frame operand of `DECODE`, where the capacity holds them (R77). -/
theorem Holds.frame {s : State} {P : List Byte} (h : Holds s P) (hroom : P.length ≤ s.cap) : s.frame = .ok P := by
  refine (frame_ok_iff s P).2 ⟨h.len.symm, fun k b hb => ⟨?_, (h.read k).trans hb⟩⟩
  obtain ⟨hk, -⟩ := List.getElem?_eq_some_iff.1 hb
  omega

/-- The bytes carried for the indices from the end of `P` on continue `P` (R61, R62). -/
theorem carried_or_getElem? (P chunk : List Byte) (k : Nat) :
    (carried chunk P.length k).or P[k]? = (P ++ chunk)[k]? := by
  rw [carried_or_eq]
  obtain hbefore | hin | hbehind : k < P.length ∨ (P.length ≤ k ∧ k < P.length + chunk.length) ∨
      P.length + chunk.length ≤ k := by omega
  · rw [if_neg (by omega), List.getElem?_append_left hbefore]
  · rw [if_pos hin, List.getElem?_append_right hin.1]
  · rw [if_neg (by omega), List.getElem?_eq_none (by omega), List.getElem?_eq_none (by simp; omega)]

/-- An accepted chunk is held behind the bytes held before (R61, R62). -/
theorem Holds.accept {s : State} {P : List Byte} (h : Holds s P) (chunk : List Byte) :
    Holds (s.accept chunk) (P ++ chunk) := by
  obtain ⟨hlen, hexp, hflag, -⟩ := accept_fields s chunk
  refine ⟨by rw [hlen, h.len, List.length_append], fun k => ?_, ?_, hflag.trans h.unlatched⟩
  · rw [accept_read_eq_carried_or, h.len, h.read, carried_or_getElem?]
  · rw [hexp, h.len, h.expected, carried_or_getElem?]

/-- The port is no part of what is held. -/
theorem Holds.withPort {s : State} {P : List Byte} (h : Holds s P) (p : List Code) : Holds { s with port := p } P :=
  ⟨h.len, h.read, h.expected, h.unlatched⟩

/-- Nor is the last result. -/
theorem Holds.answer {s : State} {P : List Byte} (h : Holds s P) (r : Result) : Holds (s.answer r) P :=
  ⟨h.len, h.read, h.expected, h.unlatched⟩

/-- A chunk that continues the held bytes towards a reassemblable frame fails no test: the bytes tested are the frame's. -/
theorem Holds.appendCause_eq_none {s : State} {P chunk Q F : List Byte} {N : Byte} (h : Holds s P)
    (hF : Reassemblable F N) (hsplit : P ++ (chunk ++ Q) = F) (hne : chunk ≠ []) (hroom : F.length ≤ s.cap) :
    appendCause chunk s = none := by
  have hpos : 1 ≤ chunk.length := List.length_pos_iff.2 hne
  have hbyte : ∀ k, s.len ≤ k → k < s.len + chunk.length → chunk[k - s.len]? = F[k]? := by
    intro k hk hk'
    rw [h.len] at hk hk' ⊢
    rw [← hsplit, List.getElem?_append_right hk, List.getElem?_append_left (by omega)]
  refine (appendCause_eq_none_iff chunk s).2 ⟨by simp [h.unlatched], ?start, ?status, ?room⟩
  case start =>
    rintro ⟨h0, hstart⟩
    have h0' := hbyte 0 (by omega) (by omega)
    rw [Nat.zero_sub, hF.start] at h0'
    exact hstart h0'
  case status =>
    rintro ⟨h2, hreach, hstatus⟩
    exact hstatus ((hbyte 2 h2 hreach).trans hF.status)
  case room =>
    have hlength := congrArg List.length hsplit
    simp only [List.length_append] at hlength
    have hlen := h.len
    exact not_lt.2 (by omega)

/-- An engine that holds the bytes `P` of a reassemblable frame `P ++ Q` finds it complete exactly when none is missing (R63). -/
theorem Holds.complete_iff {s : State} {P Q F : List Byte} {N : Byte} (h : Holds s P) (hF : Reassemblable F N)
    (hsplit : P ++ Q = F) : s.complete = true ↔ Q = [] := by
  rw [Machine.complete_iff, h.expected, h.len]
  constructor
  · rintro ⟨n, hn, hlen⟩
    have hN : F[3]? = some n := by
      rw [← hsplit, List.getElem?_append_left (List.getElem?_eq_some_iff.1 hn).1, hn]
    have hlength := hF.length
    rw [hF.lengthByte, Option.some.injEq] at hN
    rw [← hsplit, hN, ← hlen, List.length_append] at hlength
    exact List.length_eq_zero_iff.1 (by omega)
  · rintro rfl
    rw [List.append_nil] at hsplit
    exact ⟨N, hsplit ▸ hF.lengthByte, hsplit ▸ hF.length⟩

/-- One step over a chunk of a reassemblable frame: the chunk is held, and the answer is the completion test (R56 to R63). -/
theorem Holds.step_append {s : State} {P chunk Q F : List Byte} {N : Byte} {rest : List Code} (h : Holds s P)
    (hF : Reassemblable F N) (hsplit : P ++ (chunk ++ Q) = F) (hne : chunk ≠ []) (hroom : F.length ≤ s.cap)
    (hp : s.port = encode (.append chunk) :: rest) :
    ∃ t, step s = .next t ∧ Holds t (P ++ chunk) ∧ t.result = .append t.appendOutcome ∧ t.cap = s.cap ∧
      t.port = rest := by
  have hc := (h.withPort rest).appendCause_eq_none hF hsplit hne hroom
  obtain ⟨-, -, -, hcap, hport, -⟩ := accept_fields { s with port := rest } chunk
  exact ⟨_, (Machine.step_append hp hne).trans (execAppend_of_no_cause hne hc),
    ((h.withPort rest).accept chunk).answer _, rfl, hcap, hport⟩

/-- A run over the next `j` chunks of a reassemblable frame goes on; the engine then holds their bytes behind those held before,
and its answer is the completion test on them. -/
theorem Holds.run_appends {F : List Byte} {N : Byte} (hF : Reassemblable F N) {rest : List Code}
    {chunks : List (List Byte)} (hne : ∀ c ∈ chunks, c ≠ []) {j : Nat} (hj : j ≤ chunks.length) {s : State}
    {P : List Byte} (h : Holds s P) (hsplit : P ++ chunks.flatten = F) (hroom : F.length ≤ s.cap)
    (hp : s.port = chunks.map (fun c => encode (.append c)) ++ rest) :
    ∃ t : State, Host.Core.run core j s = .next t ∧ Holds t (P ++ (chunks.take j).flatten) ∧ t.cap = s.cap ∧
      t.port = (chunks.drop j).map (fun c => encode (.append c)) ++ rest ∧
      (0 < j ∨ s.result = .append s.appendOutcome → t.result = .append t.appendOutcome) := by
  induction j generalizing chunks s P with
  | zero => exact ⟨s, rfl, by simpa using h, rfl, hp, fun hres => hres.resolve_left (lt_irrefl 0)⟩
  | succ j ih =>
    cases chunks with
    | nil => cases hj
    | cons c cs =>
      obtain ⟨hc, hcs⟩ := List.forall_mem_cons.1 hne
      obtain ⟨u, hstep, hu, hres, hcap, hport⟩ := h.step_append hF hsplit hc hroom hp
      obtain ⟨t, hrun, ht, hcap', hport', hres'⟩ := ih hcs (Nat.le_of_succ_le_succ hj) hu
        (by simpa using hsplit) (hcap.symm ▸ hroom) hport
      exact ⟨t, (run_next hstep).trans hrun, by simpa using ht, hcap'.trans hcap, hport',
        fun _ => hres' (.inr hres)⟩

/-- Settles O12: after `j` chunks the engine holds their bytes, and only behind the last one is none missing. -/
theorem chunkingInvariance : Obligations.ChunkingInvariance := by
  intro F chunks s N rest hacc hlen hexp hflag hstart hstatus hbyte hlength hroom hflat hne hp
  have hF : Reassemblable F N := ⟨hstart, hstatus, hbyte, hlength⟩
  have h : Holds s [] := ⟨hlen, fun k => by rw [hacc]; rfl, hexp, hflag⟩
  have hrun := fun j (hj : j ≤ chunks.length) => h.run_appends hF hne hj hflat hroom hp
  simp only [List.nil_append] at hrun
  have hsplit : ∀ j, (chunks.take j).flatten ++ (chunks.drop j).flatten = F := fun j => by
    rw [← List.flatten_append, List.take_append_drop, hflat]
  constructor
  · intro j hpos hj
    obtain ⟨t, ht, hheld, -, -, hres⟩ := hrun j hj.le
    have hmissing : (chunks.drop j).flatten ≠ [] := by
      rw [List.drop_eq_getElem_cons hj, List.flatten_cons]
      exact List.append_ne_nil_of_left_ne_nil (hne _ (List.getElem_mem hj)) _
    refine ⟨t, ht, (hres (.inl hpos)).trans (congrArg _ ?_)⟩
    exact appendOutcome_of_not_complete (mt (hheld.complete_iff hF (hsplit j)).1 hmissing)
  · obtain ⟨t, ht, hheld, hcap, hport, hres⟩ := hrun chunks.length le_rfl
    have hdone := hheld.complete_iff hF (hsplit chunks.length)
    have hchunks : 0 < chunks.length := by
      refine List.length_pos_iff.2 ?_
      rintro rfl
      subst hflat
      simp at hlength
    rw [List.take_length, hflat] at hheld
    refine ⟨t, ht, (hres (.inl hchunks)).trans (congrArg _ (appendOutcome_of_complete (hdone.2 (by simp)))),
      hheld.frame (hcap ▸ hroom), hheld.len, hheld.expected.trans hbyte, hheld.unlatched, hcap, by simpa using hport⟩

/-- Behind the header only the latch and the capacity are left to test (R57 to R60). -/
theorem appendCause_of_long {chunk : List Byte} {s : State} (hflag : ¬ s.errorFlag = true) (h : 4 ≤ s.len) :
    appendCause chunk s = if RoomFails chunk s then some .bufferOverflow else none := by
  rw [appendCause_eq, if_neg hflag, if_neg fun hstart => by have := hstart.1; omega,
    if_neg fun hstatus => by have := hstatus.1; omega]

/-- `m` bytes have been delivered since the last `RESET`, with length byte `N`: the engine holds that many, or they exceed the
capacity and it is latched (R128). -/
def Delivered (N : Byte) (m : Nat) (s : State) : Prop :=
  (¬ s.errorFlag = true ∧ s.expectedLength = some N ∧ s.len = m ∧ m ≤ s.cap) ∨ (s.errorFlag = true ∧ s.cap < m)

theorem delivered_of_ended {s : State} (h : Inv s) (hp : s.phase = .complete ∨ s.phase = .overrun) :
    ∃ N : Byte, N.toNat + 7 ≤ s.len ∧ Delivered N s.len s := by
  have hflag : ¬ s.errorFlag = true := fun hlatched => by simp [phase_of_latched hlatched] at hp
  rcases phase_cases h hflag with ⟨-, he⟩ | ⟨-, -, he⟩ | ⟨-, N, hN, ⟨-, he⟩ | ⟨hend, -⟩⟩
  · simp [he] at hp
  · simp [he] at hp
  · simp [he] at hp
  · exact ⟨N, hend, .inl ⟨hflag, hN, rfl, h.lenLeCap⟩⟩

/-- More bytes than the frame's: the engine is in overrun, or over the capacity and latched. -/
theorem Delivered.phase {N : Byte} {m : Nat} {s : State} (h : Delivered N m s) (hpast : N.toNat + 7 < m) :
    (s.phase = .overrun ∨ s.phase = .error) ∧ (s.phase = .error ↔ m > s.cap) := by
  rcases h with ⟨hflag, hN, hlen, hroom⟩ | ⟨hflag, hover⟩
  · have hphase : s.phase = .overrun := by
      rw [phase_of_known hflag (by omega) hN, if_neg (by omega), if_neg (by omega)]
    simp [hphase, hroom]
  · simp [phase_of_latched hflag, hover]

/-- A chunk appended behind a frame's end never completes it, for `len` only moves away from the frame's length (R64). -/
theorem Delivered.exec_append {N : Byte} {m : Nat} {s : State} {chunk : List Byte} (h : Delivered N m s)
    (hend : N.toNat + 7 ≤ m) (hne : chunk ≠ []) :
    ∃ t, exec (.append chunk) s = .next t ∧ Delivered N (m + chunk.length) t ∧
      t.result ≠ .append .frameComplete ∧ t.cap = s.cap ∧ t.port = s.port := by
  have hpos : 1 ≤ chunk.length := List.length_pos_iff.2 hne
  obtain ⟨hflag, hN, rfl, -⟩ | ⟨hflag, hover⟩ := h
  · have hcause := appendCause_of_long (chunk := chunk) hflag (by omega)
    by_cases hover : RoomFails chunk s
    · rw [if_pos hover] at hcause
      exact ⟨_, execAppend_of_cause hne hcause, .inr ⟨by simp [Cause.latches], hover⟩, by simp [Cause.result], rfl, rfl⟩
    · rw [if_neg hover] at hcause
      obtain ⟨hlen, -, hflag', hcap, hport, -⟩ := accept_fields s chunk
      have hN' := (accept_expectedLength_of_long (by omega) chunk).trans hN
      have houtcome : (s.accept chunk).appendOutcome = .continuing := by
        rw [appendOutcome_of_known hN', if_neg (by omega)]
      exact ⟨_, execAppend_of_no_cause hne hcause, .inl ⟨hflag'.symm ▸ hflag, hN', hlen, hcap.symm ▸ not_lt.1 hover⟩,
        by simp [houtcome], hcap, hport⟩
  · exact ⟨_, execAppend_of_cause hne (appendCause_of_latched hflag chunk),
      .inr ⟨by simp [hflag], Nat.lt_add_right _ hover⟩, by simp [Cause.result], rfl, rfl⟩

/-- A run over chunks behind a frame's end goes on and never reports the frame complete. -/
theorem Delivered.run_appends {N : Byte} {rest : List Code} {chunks : List (List Byte)} (hne : ∀ c ∈ chunks, c ≠ [])
    {m : Nat} {s : State} (h : Delivered N m s) (hend : N.toNat + 7 ≤ m)
    (hp : s.port = chunks.map (fun c => encode (.append c)) ++ rest) :
    ∃ t : State, Host.Core.run core chunks.length s = .next t ∧ Delivered N (m + chunks.flatten.length) t ∧
      t.cap = s.cap ∧ (chunks ≠ [] ∨ s.result ≠ .append .frameComplete → t.result ≠ .append .frameComplete) := by
  induction chunks generalizing m s with
  | nil => exact ⟨s, rfl, h, rfl, fun hres => hres.resolve_left (absurd rfl)⟩
  | cons c cs ih =>
    obtain ⟨hc, hcs⟩ := List.forall_mem_cons.1 hne
    obtain ⟨u, hexec, hu, hres, hcap, hport⟩ := Delivered.exec_append
      (s := { s with port := cs.map (fun c => encode (.append c)) ++ rest }) h hend hc
    obtain ⟨t, hrun, ht, hcap', hres'⟩ := ih hcs hu (by omega) hport
    refine ⟨t, (run_next ((step_append hp hc).trans hexec)).trans hrun, ?_, hcap'.trans hcap, fun _ => hres' (.inr hres)⟩
    rwa [List.flatten_cons, List.length_append, ← Nat.add_assoc]

/-- Settles O13: the chunks deliver one byte or more behind the frame's end. -/
theorem appendsWithoutResetNeverCompleteAgain : Obligations.AppendsWithoutResetNeverCompleteAgain := by
  intro chunks s rest h hphase hchunks hne hp
  obtain ⟨N, hend, hs⟩ := delivered_of_ended h hphase
  obtain ⟨t, hrun, ht, hcap, hres⟩ := hs.run_appends hne hend hp
  have hpos : 0 < chunks.flatten.length := by
    obtain ⟨c, hc⟩ := List.exists_mem_of_ne_nil chunks hchunks
    rw [List.length_pos_iff, ne_eq, List.flatten_eq_nil_iff]
    exact fun hnil => hne c hc (hnil c hc)
  exact ⟨t, hrun, hres (.inl hchunks), hcap ▸ ht.phase (by omega)⟩

end Sys2Proof.Machine

/-! The checksum: the sum over the covered indices, what a changed byte does to it, and validation (spec 41_checksum.md). -/

namespace Sys2Proof.Machine

theorem byteAt_set_ne {k j : Nat} (h : k ≠ j) (F : List Byte) (b : Byte) : byteAt (F.set k b) j = byteAt F j := by
  simp [byteAt, List.getD_eq_getElem?_getD, List.getElem?_set_ne h]

theorem byteAt_eq_getElem {F : List Byte} {k : Nat} (h : k < F.length) : byteAt F k = F[k] := by
  simp [byteAt, List.getD_eq_getElem?_getD, h]

theorem payloadLength_set {k : Nat} (h : k ≠ 3) (F : List Byte) (b : Byte) :
    payloadLength (F.set k b) = payloadLength F := by
  rw [payloadLength, byteAt_set_ne h, payloadLength]

/-- A change of any byte but the length byte leaves a frame whole (R38). -/
theorem wholeFrame_set {F : List Byte} {k : Nat} (hw : wholeFrame F = true) (h : k ≠ 3) (b : Byte) :
    wholeFrame (F.set k b) = true := by
  rwa [wholeFrame_iff, payloadLength_set h, List.length_set, ← wholeFrame_iff]

/-- The sum over the `N + 1` covered indices, as the pseudocode of R70 runs through them. -/
theorem coveredSum_eq_sum_range {F : List Byte} (hw : wholeFrame F = true) :
    coveredSum F = ((List.range (payloadLength F + 1)).map (fun k => (byteAt F (3 + k)).toNat)).sum := by
  obtain ⟨h4, hlen⟩ := (wholeFrame_iff F).1 hw
  rw [coveredSum]
  congr 1
  apply List.ext_getElem
  · simp only [List.length_map, List.length_take, List.length_drop, List.length_range]
    omega
  · intro i hi hi'
    have hin : 3 + i < F.length := by
      rw [List.length_map, List.length_range] at hi'
      omega
    simp [byteAt_eq_getElem hin]

/-- At most 256 bytes are summed, so the sum never exceeds 16 bits (R72). -/
theorem coveredSum_le (F : List Byte) : coveredSum F ≤ 65280 := by
  have hN : payloadLength F < 256 := (byteAt F 3).isLt
  have hsum := sum_toNat_le ((F.drop 3).take (payloadLength F + 1))
  have htake : ((F.drop 3).take (payloadLength F + 1)).length ≤ payloadLength F + 1 := List.length_take_le _ _
  rw [coveredSum]
  omega

/-- `checksum` as a number (R70). -/
theorem checksum_toNat_eq (F : List Byte) : (checksum F).toNat = (65536 - coveredSum F) % 65536 :=
  checksum_toNat ((coveredSum_le F).trans (by decide))

/-- The length byte is one of the summed bytes, so the sum is zero for an empty payload only (R72). -/
theorem coveredSum_eq_zero_iff {F : List Byte} (hw : wholeFrame F = true) : coveredSum F = 0 ↔ payloadLength F = 0 := by
  rw [coveredSum_eq hw]
  constructor
  · intro h
    omega
  · intro h
    simp [h]

/-- No two sums share a checksum, for none reaches 65536. -/
theorem checksum_eq_iff (F G : List Byte) : checksum F = checksum G ↔ coveredSum F = coveredSum G := by
  have hF := coveredSum_le F
  have hG := coveredSum_le G
  rw [← BitVec.toNat_inj, checksum_toNat_eq, checksum_toNat_eq]
  omega

theorem coveredSum_set_outside {F : List Byte} {k : Nat} (hw : wholeFrame F = true)
    (hk : k < 3 ∨ 4 + payloadLength F ≤ k) (b : Byte) : coveredSum (F.set k b) = coveredSum F := by
  have h3 : k ≠ 3 := by omega
  rw [coveredSum_eq_sum_range (wholeFrame_set hw h3 b), coveredSum_eq_sum_range hw, payloadLength_set h3]
  congr 1
  refine List.map_congr_left fun i hi => ?_
  rw [byteAt_set_ne]
  rw [List.mem_range] at hi
  omega

/-- In a sum of bytes one byte is exchanged for another. -/
theorem sum_toNat_set {l : List Byte} {i : Nat} (hi : i < l.length) (b : Byte) :
    ((l.set i b).map BitVec.toNat).sum + l[i].toNat = (l.map BitVec.toNat).sum + b.toNat := by
  induction l generalizing i with
  | nil => exact absurd hi (Nat.not_lt_zero i)
  | cons x l ih =>
    cases i with
    | zero =>
      simp only [List.set_cons_zero, List.getElem_cons_zero, List.map_cons, List.sum_cons]
      omega
    | succ i =>
      have := ih (Nat.lt_of_succ_lt_succ hi)
      simp only [List.set_cons_succ, List.getElem_cons_succ, List.map_cons, List.sum_cons]
      omega

theorem coveredSum_set_payload {F : List Byte} {k : Nat} (hw : wholeFrame F = true) (h4 : 4 ≤ k)
    (hk : k < 4 + payloadLength F) (b : Byte) :
    coveredSum (F.set k b) + (byteAt F k).toNat = coveredSum F + b.toNat := by
  obtain ⟨-, hlen⟩ := (wholeFrame_iff F).1 hw
  have hi : k - 3 < ((F.drop 3).take (payloadLength F + 1)).length := by
    rw [List.length_take, List.length_drop]
    omega
  have hbyte : ((F.drop 3).take (payloadLength F + 1))[k - 3] = byteAt F k := by
    rw [List.getElem_take, List.getElem_drop, byteAt_eq_getElem (by omega)]
    congr 1
    omega
  rw [coveredSum, payloadLength_set (by omega), List.drop_set, if_neg (by omega), List.take_set, ← hbyte]
  exact sum_toNat_set hi b

/-- A change of one payload byte moves the checksum (R74). -/
theorem checksum_set_payload_ne {F : List Byte} {k : Nat} {b : Byte} (hw : wholeFrame F = true) (h4 : 4 ≤ k)
    (hk : k < 4 + payloadLength F) (hb : b ≠ byteAt F k) : checksum (F.set k b) ≠ checksum F := by
  have hsum := coveredSum_set_payload hw h4 hk b
  have hne : b.toNat ≠ (byteAt F k).toNat := BitVec.toNat_ne_iff_ne.2 hb
  rw [Ne, checksum_eq_iff]
  omega

/-- `received` reads two bytes, at the place the length byte gives (R73). -/
theorem received_set {F : List Byte} {k : Nat} (h3 : k ≠ 3) (hhi : k ≠ 4 + payloadLength F)
    (hlo : k ≠ 5 + payloadLength F) (b : Byte) : received (F.set k b) = received F := by
  rw [received, payloadLength_set h3, byteAt_set_ne hhi, byteAt_set_ne hlo, received]

theorem validate_iff (F : List Byte) : validate F = true ↔ checksum F = received F := by
  rw [validate, beq_iff_eq]

theorem validate_congr {F G : List Byte} (hc : checksum F = checksum G) (hr : received F = received G) :
    validate F = validate G := by
  rw [validate, hc, hr, validate]

/-- Settles O22. -/
theorem checksumIsTheNegatedByteSum : Obligations.ChecksumIsTheNegatedByteSum := by
  intro F hw
  rw [← coveredSum_eq_sum_range hw]
  exact checksum_toNat_eq F

/-- Settles O24: the checksum is zero when the sum is, and else 65536 less a sum of at most 65280. -/
theorem checksumRange : Obligations.ChecksumRange := by
  intro F hw
  have hle := coveredSum_le F
  rw [← coveredSum_eq_zero_iff hw, checksum_toNat_eq]
  omega

/-- Settles O25. -/
theorem checksumCoverage : Obligations.ChecksumCoverage := by
  intro F k b hw
  have houtside (hk : k < 3 ∨ 4 + payloadLength F ≤ k) : checksum (F.set k b) = checksum F :=
    (checksum_eq_iff _ _).2 (coveredSum_set_outside hw hk b)
  refine ⟨?_, houtside, fun hk => ?_, fun h4 hk hb => checksum_set_payload_ne hw h4 hk hb⟩
  · rw [checksum_toNat_eq, coveredSum_eq hw, payloadLength]
  · exact validate_congr (houtside (by omega)) (received_set (by omega) (by omega) (by omega) b)

/-- Two payload bytes, one up and the other down by one without a wrap, leave the sum as it is (R74). -/
theorem coveredSum_set_up_down {F : List Byte} {j k : Nat} (hw : wholeFrame F = true) (hj4 : 4 ≤ j)
    (hj : j < 4 + payloadLength F) (hk4 : 4 ≤ k) (hk : k < 4 + payloadLength F) (hjk : j ≠ k)
    (hup : (byteAt F j).toNat < 255) (hdown : 0 < (byteAt F k).toNat) :
    coveredSum ((F.set j (byteAt F j + 1)).set k (byteAt F k - 1)) = coveredSum F := by
  have hj3 : j ≠ 3 := by omega
  have hfirst := coveredSum_set_payload hw hj4 hj (byteAt F j + 1)
  have hsecond := coveredSum_set_payload (wholeFrame_set hw hj3 (byteAt F j + 1)) hk4
    (by rwa [payloadLength_set hj3]) (byteAt F k - 1)
  rw [byteAt_set_ne hjk] at hsecond
  have hinc : (byteAt F j + 1).toNat = (byteAt F j).toNat + 1 := by bv_omega
  have hdec : (byteAt F k - 1).toNat = (byteAt F k).toNat - 1 := by bv_omega
  omega

/-- Settles O26: one changed byte moves the checksum away from the unmoved `received`; two that cancel move neither. -/
theorem validateDetectsOneByteNotTwo : Obligations.ValidateDetectsOneByteNotTwo := by
  constructor
  · intro F k b hw hv h4 hk hb
    have hreceived := received_set (F := F) (k := k) (by omega) (by omega) (by omega) b
    rw [Bool.eq_false_iff, Ne, validate_iff, hreceived, ← (validate_iff F).1 hv]
    exact checksum_set_payload_ne hw h4 hk hb
  · intro F j k hw hj4 hj hk4 hk hjk hup hdown
    have hj3 : j ≠ 3 := by omega
    refine validate_congr ((checksum_eq_iff _ _).2 (coveredSum_set_up_down hw hj4 hj hk4 hk hjk hup hdown)) ?_
    have hN := payloadLength_set hj3 F (byteAt F j + 1)
    rw [received_set (by omega) (by omega) (by omega), received_set hj3 (by omega) (by omega)]

/-- Settles O23. -/
theorem validateComparesWithTheTransmittedPair : Obligations.ValidateComparesWithTheTransmittedPair :=
  fun F => ⟨toNat_be16 _ _, validate_iff F⟩

end Sys2Proof.Machine

/-! `DECODE`: its answer as a function of the frame in the buffer, and the FRAME rows it reaches (spec 42_decode.md). -/

namespace Sys2Proof.Machine

/-- A cause that is handed out as a `DECODE` result does not latch (R51, R109). -/
theorem latches_of_decode_result {c : Cause} (h : c.result = .decode (.err c)) : c.latches = false := by
  rw [Bool.eq_false_iff, Ne, latches_iff]
  rintro (rfl | rfl) <;> cases h

/-- The errors of `decode_frame` are `DECODE` results (R51). -/
theorem result_of_decodeFrame_error {F : List Byte} {c : Cause} (h : decodeFrame F = .error c) :
    c.result = .decode (.err c) := by
  obtain ⟨-, rfl | rfl | rfl⟩ := decodeFrame_error h <;> rfl

/-- A decode result with a decoder error only answers, in the form of R49. -/
theorem answerDecode_eq_answer {r : Except Cause DecodedRecord} (h : ∀ c, r = .error c → c.result = .decode (.err c))
    (s : State) : s.answerDecode r = s.answer (.decode (decodeResult r)) := by
  cases r with
  | ok record => rfl
  | error c =>
    have hc := h c rfl
    calc s.raise c = s.answer c.result := raise_eq_answer (latches_of_decode_result hc) s
      _ = s.answer (.decode (.err c)) := by rw [hc]

/-- `DECODE` without a ready frame answers `NoFrame` and nothing else (R77). -/
theorem execDecode_answers_noFrame {s : State} (hr : s.frameReady = false) :
    execDecode s = .next (s.answer (.decode (.err .noFrame))) :=
  (execDecode_of_not_ready hr).trans (congrArg _ (raise_eq_answer rfl s))

/-- `DECODE` of a ready frame answers what `decode_frame` gives for it, and nothing else (R76, R83). -/
theorem execDecode_answers_decodeFrame {s : State} {F : List Byte} (hr : s.frameReady = true) (hF : s.frame = .ok F)
    (hw : wholeFrame F = true) : execDecode s = .next (s.answer (.decode (decodeResult (decodeFrame F)))) :=
  (execDecode_of_ready hr hF hw).trans
    (congrArg _ (answerDecode_eq_answer (fun _ => result_of_decodeFrame_error) s))

theorem runValidated_of_mismatch {F : List Byte} (h : checksum F ≠ received F)
    (routine : List Byte → Except Cause DecodedRecord) :
    runValidated routine F = .error (.checksumMismatch (received F) (checksum F)) := by
  rw [runValidated_eq, if_neg h]

theorem runValidated_of_match {F : List Byte} (h : checksum F = received F)
    (routine : List Byte → Except Cause DecodedRecord) : runValidated routine F = routine F := by
  rw [runValidated_eq, if_pos h]

theorem extract_of_pack {F : List Byte} (h : byteAt F 1 = cmdPack) : extract F = packSummary F :=
  if_pos h

theorem extract_of_cells {F : List Byte} (h : byteAt F 1 = cmdCells) : extract F = cellVoltages F := by
  have hne : byteAt F 1 ≠ cmdPack := by rw [h]; decide
  rw [extract, if_neg hne, if_pos h]

theorem extract_of_other {F : List Byte} (hp : byteAt F 1 ≠ cmdPack) (hc : byteAt F 1 ≠ cmdCells) :
    extract F = .error .unknownCommand := by
  rw [extract, if_neg hp, if_neg hc]

/-- Validation looks at the frame alone: two routines that agree on it agree behind the validation. -/
theorem runValidated_congr {routine routine' : List Byte → Except Cause DecodedRecord} {F : List Byte}
    (h : routine F = routine' F) : runValidated routine F = runValidated routine' F := by
  rw [runValidated, h, runValidated]

/-- `decode_frame` in the order of R76: the checksum, then the routine of the command byte. -/
theorem decodeResult_decodeFrame (F : List Byte) :
    decodeResult (decodeFrame F) =
      if checksum F ≠ received F then .err (.checksumMismatch (received F) (checksum F))
      else if byteAt F 1 = cmdPack then decodeResult (packSummary F)
      else if byteAt F 1 = cmdCells then decodeResult (cellVoltages F)
      else .err .unknownCommand := by
  rw [decodeFrame]
  split_ifs with hsum hpack hcells
  · rw [runValidated_of_mismatch hsum]; rfl
  · rw [runValidated_of_match (not_not.1 hsum), extract_of_pack hpack]
  · rw [runValidated_of_match (not_not.1 hsum), extract_of_cells hcells]
  · rw [runValidated_of_match (not_not.1 hsum), extract_of_other hpack hcells]; rfl

/-- Settles O27: a sound state that is ready holds one whole frame, and `decode_frame` of it is the answer. -/
theorem decodeFollowsItsOrder : Obligations.DecodeFollowsItsOrder := by
  refine ⟨rfl, fun s h => ?_⟩
  split_ifs with hr
  · exact execDecode_answers_noFrame hr
  · have hready : s.frameReady = true := Bool.eq_true_of_not_eq_false hr
    obtain ⟨F, hF, hw, hlen, -⟩ := wholeFrame_of_ready h hready
    obtain ⟨-, hwhole⟩ := (wholeFrame_iff F).1 hw
    refine ⟨F, hF, hwhole, hlen, (execDecode_answers_decodeFrame hready hF hw).trans ?_⟩
    rw [decodeResult_decodeFrame]
    rfl

/-- Settles O28: `DECODE` only answers, and its outcome does not depend on the answer that stood before. -/
theorem decodeIsReadOnlyAndRepeatable : Obligations.DecodeIsReadOnlyAndRepeatable := by
  intro s t h
  obtain ⟨x, rfl⟩ := execDecode_answers h
  refine ⟨rfl, ?_⟩
  calc exec .decode (s.withPortResult s.port x)
      = onPort s.port (exec .decode s) := exec_withPortResult (i := .decode) nofun nofun s s.port x
    _ = onPort s.port (.next (s.answer x)) := by rw [h]
    _ = .next (s.answer x) := rfl

/-- Settles O29. -/
theorem decodeWithoutFrameIsNoFrame : Obligations.DecodeWithoutFrameIsNoFrame :=
  fun s => ⟨frameReady_iff s, Option.isSome_iff_exists, rfl, execDecode_answers_noFrame⟩

/-- Settles O32: the operands of the FRAME instruction lay out the frame again, and its command byte selects the routine of
that instruction. -/
theorem decodeRunsTheFrameInTheBuffer : Obligations.DecodeRunsTheFrameInTheBuffer := by
  intro s F i hr hF hd
  obtain ⟨⟨hw, hstart, hstatus⟩, hrow⟩ := (decodeFrameRow_ok_iff F i).1 hd
  have hlayout := frameBytes_frameOperands hw hstart hstatus
  have hwf := Laws.frameOperands_wf F
  refine (execDecode_of_ready hr hF hw).trans ?_
  obtain ⟨hcmd, rfl⟩ | ⟨hcmd, rfl⟩ := hrow
  · rw [hcmd] at hlayout
    refine Eq.trans ?_ (execPackSummary_of_wf hwf s).symm
    rw [hlayout, decodeFrame, runValidated_congr (extract_of_pack hcmd)]
  · rw [hcmd] at hlayout
    refine Eq.trans ?_ (execCellVoltages_of_wf hwf s).symm
    rw [hlayout, decodeFrame, runValidated_congr (extract_of_cells hcmd)]

/-- Any routine behind the validation answers, for an encoded frame with a wrong checksum, the mismatch of its checksum operand
with the computed value (R78). -/
theorem answerDecode_of_mismatch {cmd : Byte} {f : Frame} (hf : f.wf = true)
    (h : f.checksum ≠ checksum (frameBytes cmd f)) (routine : List Byte → Except Cause DecodedRecord) (s : State) :
    s.answerDecode (runValidated routine (frameBytes cmd f))
      = s.answer (.decode (.err (.checksumMismatch f.checksum (checksum (frameBytes cmd f))))) := by
  have hreceived := received_frameBytes (cmd := cmd) hf
  rw [runValidated_of_mismatch (hreceived.symm ▸ h.symm), hreceived]
  exact raise_eq_answer rfl s

/-- Settles O33. -/
theorem frameInstructionsValidateFirst : Obligations.FrameInstructionsValidateFirst :=
  fun _ s hf =>
    ⟨fun h => (execPackSummary_of_wf hf s).trans (congrArg _ (answerDecode_of_mismatch hf h packSummary s)),
      fun h => (execCellVoltages_of_wf hf s).trans (congrArg _ (answerDecode_of_mismatch hf h cellVoltages s))⟩

/-- Settles O41: the step takes `DECODE` off the port, which neither `DECODE` nor the FRAME instruction looks at. -/
theorem stepRunsTheFrameThroughDecode : Obligations.StepRunsTheFrameThroughDecode := by
  intro s rest F i hp hr hF hd
  calc step s
      = exec .decode { s with port := rest } := step_of_port hp rfl
    _ = onPort rest (exec .decode s) := exec_withPort .decode s rest
    _ = onPort rest (exec i s) := by rw [decodeRunsTheFrameInTheBuffer s F i hr hF hd]
    _ = exec i { s with port := rest } := (exec_withPort i s rest).symm

end Sys2Proof.Machine

/-! `PACK_SUMMARY`: when its reads fit the payload, and what each of them reads there (spec 43_pack_summary.md). -/

namespace Sys2Proof.Machine

/-- Each result of a sequence of reads is the result of its own read. -/
theorem readEach_getElem? {α : Type} {read : Nat → Except Cause α} {start n i : Nat} {as : List α}
    (h : readEach read start n = .ok as) (hi : i < n) : ∃ a, as[i]? = some a ∧ read (start + i) = .ok a := by
  obtain ⟨rfl, hread⟩ := (readEach_ok_iff read start n as).1 h
  have hsome : as[i]? = some as[i] := List.getElem?_eq_getElem hi
  exact ⟨as[i], hsome, hread i _ hsome⟩

/-- A sequence of reads succeeds exactly when every single read does (R80). -/
theorem readEach_succeeds_iff {α : Type} (read : Nat → Except Cause α) (start n : Nat) :
    (∃ as, readEach read start n = .ok as) ↔ ∀ i, i < n → ∃ a, read (start + i) = .ok a := by
  refine ⟨fun ⟨as, h⟩ i hi => ?_, readEach_exists⟩
  obtain ⟨a, -, ha⟩ := readEach_getElem? h hi
  exact ⟨a, ha⟩

/-- The balance bits fit exactly when the last cell's byte does (R100 item 2). -/
theorem balancing_succeeds_iff (F : List Byte) (n : Nat) :
    (∃ bal, readEach (balanceBit F) 0 n = .ok bal) ↔ n = 0 ∨ 12 + (n - 1) / 8 < payloadLength F := by
  simp only [readEach_succeeds_iff, balanceBit_ok_iff, exists_and_left, exists_eq, and_true, Nat.zero_add]
  constructor
  · intro hall
    exact n.eq_zero_or_pos.imp_right fun hpos => hall (n - 1) (by omega)
  · intro hlast i hi
    omega

/-- The temperatures fit exactly when the last sensor's pair does (R100 item 3). -/
theorem temperatures_succeed_iff (F : List Byte) (n : Nat) :
    (∃ tmp, readEach (temperature F) 0 n = .ok tmp) ↔ n = 0 ∨ 23 + 2 * n ≤ payloadLength F := by
  simp only [readEach_succeeds_iff, temperature_ok_iff, exists_and_left, exists_eq, and_true, Nat.zero_add]
  constructor
  · intro hall
    refine n.eq_zero_or_pos.imp_right fun hpos => ?_
    have hlast := hall (n - 1) (by omega)
    omega
  · intro hlast i hi
    omega

/-- The bits that were read are those R92 selects. -/
theorem balancing_getElem? {F : List Byte} {n i : Nat} {bal : List Bool}
    (h : readEach (balanceBit F) 0 n = .ok bal) (hi : i < n) :
    12 + i / 8 < payloadLength F ∧ bal[i]? = some ((byteAt F (4 + (12 + i / 8))).getLsbD (7 - i % 8)) := by
  obtain ⟨b, hb, hread⟩ := readEach_getElem? h hi
  rw [Nat.zero_add, balanceBit_ok_iff] at hread
  obtain ⟨hfits, rfl⟩ := hread
  rw [← Nat.add_assoc]
  exact ⟨hfits, hb⟩

/-- The temperatures that were read are the pairs of R99. -/
theorem temperatures_getElem? {F : List Byte} {n j : Nat} {tmp : List Int}
    (h : readEach (temperature F) 0 n = .ok tmp) (hj : j < n) :
    23 + 2 * j + 2 ≤ payloadLength F ∧
      tmp[j]? = some (deciCelsius (be16 (byteAt F (4 + (23 + 2 * j))) (byteAt F (4 + (24 + 2 * j))))) := by
  obtain ⟨t, ht, hread⟩ := readEach_getElem? h hj
  rw [Nat.zero_add, temperature_ok_iff] at hread
  obtain ⟨hfits, rfl⟩ := hread
  rw [← Nat.add_assoc, ← Nat.add_assoc]
  exact ⟨hfits, ht⟩

/-- No read of the pack summary falls outside the payload: the negation of the three conditions of R100. -/
def SummaryFits (F : List Byte) : Prop :=
  23 ≤ payloadLength F ∧
  ((byteAt F 25).toNat = 0 ∨ 12 + ((byteAt F 25).toNat - 1) / 8 < payloadLength F) ∧
  23 + 2 * (byteAt F 26).toNat ≤ payloadLength F

/-- A pack summary that fits is the record of R104 with its two sequences. -/
theorem packSummary_of_fits {F : List Byte} (h : SummaryFits F) :
    ∃ bal tmp, readEach (balanceBit F) 0 (byteAt F 25).toNat = .ok bal ∧
      readEach (temperature F) 0 (byteAt F 26).toNat = .ok tmp ∧
      packSummary F = .ok (.packSummary (summaryOf F bal tmp)) := by
  obtain ⟨hfixed, hcells, hsensors⟩ := h
  obtain ⟨bal, hbal⟩ := (balancing_succeeds_iff F _).2 hcells
  obtain ⟨tmp, htmp⟩ := (temperatures_succeed_iff F _).2 (.inr hsensors)
  exact ⟨bal, tmp, hbal, htmp, by rw [packSummary_long hfixed, hbal, htmp]⟩

theorem fits_of_packSummary_ok {F : List Byte} {r : DecodedRecord} (h : packSummary F = .ok r) : SummaryFits F := by
  have hfixed : 23 ≤ payloadLength F := by
    by_contra hshort
    rw [packSummary_short (by omega)] at h
    cases h
  rw [packSummary_long hfixed] at h
  cases hbal : readEach (balanceBit F) 0 (byteAt F 25).toNat with
  | error c => rw [hbal] at h; cases h
  | ok bal =>
    cases htmp : readEach (temperature F) 0 (byteAt F 26).toNat with
    | error c => rw [hbal, htmp] at h; cases h
    | ok tmp =>
      have hsensors := (temperatures_succeed_iff F _).1 ⟨tmp, htmp⟩
      exact ⟨hfixed, (balancing_succeeds_iff F _).1 ⟨bal, hbal⟩, by omega⟩

theorem packSummary_of_not_fits {F : List Byte} (h : ¬ SummaryFits F) : packSummary F = .error .truncated := by
  cases hr : packSummary F with
  | ok r => exact absurd (fits_of_packSummary_ok hr) h
  | error c => rw [packSummary_error hr]

/-- Behind a checksum that matches, `PACK_SUMMARY` answers what its routine gives, and nothing else (R78). -/
theorem execPackSummary_of_match {f : Frame} (hf : f.wf = true) (h : f.checksum = checksum (frameBytes cmdPack f))
    (s : State) :
    execPackSummary f s = .next (s.answer (.decode (decodeResult (packSummary (frameBytes cmdPack f))))) := by
  have hmatch : checksum (frameBytes cmdPack f) = received (frameBytes cmdPack f) := by rw [received_frameBytes hf, h]
  have herror : ∀ c, packSummary (frameBytes cmdPack f) = .error c → c.result = .decode (.err c) := by
    intro c hc
    rw [packSummary_error hc]
    rfl
  rw [execPackSummary_of_wf hf, runValidated_of_match hmatch, answerDecode_eq_answer herror]

/-- The conditions of R100 on the payload of an encoded frame. -/
theorem summaryFits_frameBytes_iff {cmd : Byte} {f : Frame} (hf : f.wf = true) :
    SummaryFits (frameBytes cmd f) ↔
      23 ≤ f.payload.length ∧
      ((f.payload.getD 21 0).toNat = 0 ∨ 12 + ((f.payload.getD 21 0).toNat - 1) / 8 < f.payload.length) ∧
      23 + 2 * (f.payload.getD 22 0).toNat ≤ f.payload.length := by
  rw [SummaryFits, payloadLength_frameBytes hf]
  refine and_congr_right fun hfixed => ?_
  have hcells : byteAt (frameBytes cmd f) 25 = f.payload.getD 21 0 :=
    byteAt_frameBytes_payload (k := 21) (by omega)
  have hsensors : byteAt (frameBytes cmd f) 26 = f.payload.getD 22 0 :=
    byteAt_frameBytes_payload (k := 22) (by omega)
  rw [hcells, hsensors]

/-- Settles O36: each sequence of reads fits exactly when its last read does. -/
theorem packSummaryIsTruncatedExactlyWhenItDoesNotFit : Obligations.PackSummaryIsTruncatedExactlyWhenItDoesNotFit := by
  intro f s hf hsum N cellCount tempCount
  have hexec := execPackSummary_of_match hf hsum s
  have hfits := summaryFits_frameBytes_iff (cmd := cmdPack) hf
  split_ifs with htruncated
  · rw [packSummary_of_not_fits (by rw [hfits]; omega)] at hexec
    exact hexec
  · obtain ⟨bal, tmp, -, -, hrecord⟩ := packSummary_of_fits (hfits.2 (by omega))
    rw [hrecord] at hexec
    exact ⟨_, hexec⟩

/-- Settles O35: the record is `summaryOf` of the encoded frame, whose byte at index `4 + k` is the payload's at `k`. -/
theorem packSummaryFieldsArePayloadFields : Obligations.PackSummaryFieldsArePayloadFields := by
  intro f s hf hsum P hsensors hcells
  have hfixed : 23 ≤ f.payload.length := by omega
  have hbyte : ∀ k, k < 23 → byteAt (frameBytes cmdPack f) (4 + k) = P k := fun k hk =>
    byteAt_frameBytes_payload (by omega)
  have hpair : ∀ k, k + 1 < 23 →
      be16 (byteAt (frameBytes cmdPack f) (4 + k)) (byteAt (frameBytes cmdPack f) (4 + (k + 1)))
        = be16 (P k) (P (k + 1)) := fun k hk => by rw [hbyte k (by omega), hbyte (k + 1) hk]
  have hN := payloadLength_frameBytes (cmd := cmdPack) hf
  obtain ⟨bal, tmp, hbal, htmp, hrecord⟩ :=
    packSummary_of_fits ((summaryFits_frameBytes_iff hf).2 ⟨hfixed, hcells, hsensors⟩)
  have hexec := execPackSummary_of_match hf hsum s
  rw [hrecord] at hexec
  rw [show byteAt (frameBytes cmdPack f) 25 = P 21 from hbyte 21 (by omega)] at hbal
  rw [show byteAt (frameBytes cmdPack f) 26 = P 22 from hbyte 22 (by omega)] at htmp
  refine ⟨_, hexec, hpair 0 (by omega), congrArg s16 (hpair 2 (by omega)), hpair 4 (by omega), hpair 6 (by omega),
    hpair 8 (by omega), congrArg unpackDate (hpair 10 (by omega)), hpair 16 (by omega), hbyte 18 (by omega),
    hbyte 19 (by omega), congrArg (BitVec.getLsbD · 0) (hbyte 20 (by omega)),
    congrArg (BitVec.getLsbD · 1) (hbyte 20 (by omega)), hbyte 21 (by omega), hbyte 22 (by omega),
    ((readEach_ok_iff _ _ _ _).1 hbal).1, fun i hi => ?balance, ((readEach_ok_iff _ _ _ _).1 htmp).1,
    fun j hj => ?temperature⟩
  case balance =>
    obtain ⟨hin, hbit⟩ := balancing_getElem? hbal hi
    rw [hN] at hin
    rwa [byteAt_frameBytes_payload hin] at hbit
  case temperature =>
    obtain ⟨hin, hval⟩ := temperatures_getElem? htmp hj
    have hhigh : 23 + 2 * j < f.payload.length := by omega
    have hlow : 24 + 2 * j < f.payload.length := by omega
    rwa [byteAt_frameBytes_payload hhigh, byteAt_frameBytes_payload hlow] at hval

end Sys2Proof.Machine

/-! `CELL_VOLTAGES`: its readings as the byte pairs of the operand's payload (spec 44_cell_voltages.md). -/

namespace Sys2Proof.Machine

/-- A byte pair as the number the spec writes for it (R106). -/
theorem be16_eq_ofNat (hi lo : Byte) : be16 hi lo = BitVec.ofNat 16 (hi.toNat * 256 + lo.toNat) := by
  rw [← toNat_be16, BitVec.ofNat_toNat, BitVec.setWidth_eq]

/-- A payload byte in its place in the encoded frame (R9). -/
theorem byteAt_frameBytes_of_getElem? {cmd : Byte} {f : Frame} {k : Nat} {b : Byte} (h : f.payload[k]? = some b) :
    byteAt (frameBytes cmd f) (4 + k) = b := by
  obtain ⟨hk, -⟩ := List.getElem?_eq_some_iff.1 h
  rw [byteAt_frameBytes_payload hk, List.getD_eq_getElem?_getD, h, Option.getD_some]

/-- Any routine behind the validation answers its record, for an encoded frame whose checksum is right (R78). -/
theorem answerDecode_of_match {cmd : Byte} {f : Frame} {routine : List Byte → Except Cause DecodedRecord}
    {record : DecodedRecord} (hf : f.wf = true) (h : f.checksum = checksum (frameBytes cmd f))
    (hrecord : routine (frameBytes cmd f) = .ok record) (s : State) :
    s.answerDecode (runValidated routine (frameBytes cmd f)) = s.answer (.decode (.ok record)) := by
  have hmatch : checksum (frameBytes cmd f) = received (frameBytes cmd f) := by rw [received_frameBytes hf, h]
  rw [runValidated_of_match hmatch, hrecord]
  rfl

/-- The count comes from one length byte (R105). -/
theorem cellCount_le (F : List Byte) : payloadLength F / 2 ≤ 127 := by
  have hbyte : payloadLength F < 256 := (byteAt F 3).isLt
  omega

/-- The readings of an encoded frame are the pairs of its payload; an odd byte at the end is in none of them (R106, R107). -/
theorem cellVoltages_frameBytes (cmd : Byte) {f : Frame} (hf : f.wf = true) :
    ∃ mv, cellVoltages (frameBytes cmd f) = .ok (.cellVoltages mv) ∧
      mv.length = f.payload.length / 2 ∧ mv.length ≤ 127 ∧
      ∀ i a b, f.payload[2 * i]? = some a → f.payload[2 * i + 1]? = some b → mv[i]? = some (be16 a b) := by
  obtain ⟨mv, hmv, hlen, hval⟩ := cellVoltages_eq (frameBytes cmd f)
  have hcount : mv.length = f.payload.length / 2 := by rw [hlen, payloadLength_frameBytes hf]
  refine ⟨mv, hmv, hcount, hlen ▸ cellCount_le _, fun i a b ha hb => ?_⟩
  obtain ⟨hpair, -⟩ := List.getElem?_eq_some_iff.1 hb
  have hread : mv[i]? = some mv[i] := List.getElem?_eq_getElem (by omega)
  rw [hread, hval i _ hread, show 5 + 2 * i = 4 + (2 * i + 1) by omega, byteAt_frameBytes_of_getElem? ha,
    byteAt_frameBytes_of_getElem? hb]

/-- Settles O34: behind the matching checksum the answer is the record of the payload's pairs. -/
theorem cellVoltagesAreThePayloadPairs : Obligations.CellVoltagesAreThePayloadPairs := by
  intro f s hf hsum
  obtain ⟨mv, hrecord, hcount, hbound, hpairs⟩ := cellVoltages_frameBytes cmdCells hf
  have hexec : execCellVoltages f s = .next (s.answer (.decode (.ok (.cellVoltages mv)))) := by
    rw [execCellVoltages_of_wf hf, answerDecode_of_match hf hsum hrecord]
  exact ⟨mv, hexec, hcount, hbound, fun i a b ha hb => be16_eq_ofNat a b ▸ hpairs i a b ha hb⟩

end Sys2Proof.Machine

/-! The errors and the way back from them (spec 60_exceptions.md): which `APPEND` errors abandon the frame until `RESET`, and which
errors `DECODE` alone reports. -/

namespace Sys2Proof.Machine

/-- In an unlatched engine the start marker is tested first (R56, R58). -/
theorem appendCause_of_startFails {chunk : List Byte} {s : State} (hflag : ¬ s.errorFlag = true)
    (hstart : StartFails chunk s) : appendCause chunk s = some .malformedStart := by
  rw [appendCause_eq, if_neg hflag, if_pos hstart]

/-- Behind the start marker the status byte is tested (R59). -/
theorem appendCause_of_statusFails {chunk : List Byte} {s : State} (hflag : ¬ s.errorFlag = true)
    (hstart : ¬ StartFails chunk s) (hstatus : StatusFails chunk s) :
    appendCause chunk s = some .bmsReportedFault := by
  rw [appendCause_eq, if_neg hflag, if_neg hstart, if_pos hstatus]

/-- The capacity is tested last (R60). -/
theorem appendCause_of_roomFails {chunk : List Byte} {s : State} (hflag : ¬ s.errorFlag = true)
    (hstart : ¬ StartFails chunk s) (hstatus : ¬ StatusFails chunk s) (hroom : RoomFails chunk s) :
    appendCause chunk s = some .bufferOverflow := by
  rw [appendCause_eq, if_neg hflag, if_neg hstart, if_neg hstatus, if_pos hroom]

/-- Settles O6: the error only answers, and no instruction but a request looks at the answer that stood before. -/
theorem malformedStartLeavesTheEngineReady : Obligations.MalformedStartLeavesTheEngineReady := by
  intro chunk s hne hflag hlen hstart
  have hc : appendCause chunk s = some .malformedStart := appendCause_of_startFails (by simp [hflag]) ⟨hlen, hstart⟩
  obtain ⟨hresult, -⟩ := noHiddenState
  exact ⟨_, (execAppend_of_cause hne hc).trans (congrArg _ (raise_eq_answer rfl s)), rfl,
    fun next => hresult (.append next) s _ nofun nofun⟩

theorem frameReady_of_latched {s : State} (h : s.errorFlag = true) : s.frameReady = false := by
  simp [State.frameReady, h]

/-- What a latched engine has left to do: `APPEND` is refused and `DECODE` finds no frame, until `RESET` releases it (R14, R121). -/
theorem latched_until_reset {s : State} (h : s.errorFlag = true) :
    (∀ next : List Byte, next ≠ [] →
      exec (.append next) s = .next { s with result := .append (.error .errorLatched) }) ∧
    exec .decode s = .next { s with result := .decode (.err .noFrame) } ∧
    (∃ u, exec .reset s = .next u ∧ u.errorFlag = false) := by
  obtain ⟨-, -, hrefused, hnoFrame⟩ := latchIsSetByTwoCausesAndClearedByReset
  exact ⟨fun next hne => hrefused next s h hne, hnoFrame s h, s.clear, rfl, rfl⟩

/-- A latching cause stores nothing and sets the latch (R111, R112). -/
theorem execAppend_of_latching_cause {chunk : List Byte} {s : State} {c : Cause} (hne : chunk ≠ [])
    (hc : appendCause chunk s = some c) (hlatches : c.latches = true) :
    execAppend chunk s = .next { s with errorFlag := true, result := .append (.error c) } := by
  rw [execAppend_of_cause hne hc, raise_of_latches hlatches, result_of_appendCause hc]

/-- Settles O7: the status test is the first that fails, and its cause latches. -/
theorem bmsReportedFaultAbandonsTheFrame : Obligations.BmsReportedFaultAbandonsTheFrame := by
  intro chunk s hflag hstart hlen hreach hstatus
  have hne : chunk ≠ [] := List.length_pos_iff.1 (by omega)
  have hc : appendCause chunk s = some .bmsReportedFault :=
    appendCause_of_statusFails (by simp [hflag]) (fun h => h.2 (hstart h.1)) ⟨hlen, hreach, hstatus⟩
  exact ⟨_, execAppend_of_latching_cause hne hc rfl, rfl, latched_until_reset rfl⟩

/-- Settles O8: the capacity test is the first that fails, its cause latches, and a latched engine is not ready. -/
theorem bufferOverflowAbandonsTheFrame : Obligations.BufferOverflowAbandonsTheFrame := by
  intro chunk s hne hflag hstart hstatus hroom
  have hc : appendCause chunk s = some .bufferOverflow :=
    appendCause_of_roomFails (by simp [hflag]) (fun h => h.2 (hstart h.1)) (fun h => h.2.2 (hstatus h.1 h.2.1)) hroom
  exact ⟨_, execAppend_of_latching_cause hne hc rfl, rfl, frameReady_of_latched rfl, latched_until_reset rfl⟩

/-- Settles O30: validation comes first, and its error only answers. -/
theorem checksumMismatchReportsBothValues : Obligations.ChecksumMismatchReportsBothValues := by
  intro s F hr hF hw hsum
  refine (execDecode_answers_decodeFrame hr hF hw).trans ?_
  rw [decodeResult_decodeFrame, if_pos hsum]
  rfl

/-- A whole frame that begins with the start marker and reports success can be reassembled, whatever its command (R38 to R42). -/
theorem reassemblable_of_wholeFrame {F : List Byte} (hw : wholeFrame F = true) (hstart : byteAt F 0 = startMarker)
    (hstatus : byteAt F 2 = statusOk) : Reassemblable F (byteAt F 3) := by
  obtain ⟨h4, hlength⟩ := (wholeFrame_iff F).1 hw
  exact ⟨by rw [getElem?_of_lt (by omega), hstart]; rfl, by rw [getElem?_of_lt (by omega), hstatus]; rfl,
    getElem?_of_lt (by omega), hlength⟩

/-- A reassemblable frame in one chunk fails no test of an empty engine that has room for it (R57 to R60). -/
theorem Reassemblable.appendCause_eq_none {F : List Byte} {N : Byte} (hF : Reassemblable F N) {s : State}
    (hflag : s.errorFlag = false) (hlen : s.len = 0) (hroom : F.length ≤ s.cap) : appendCause F s = none := by
  refine (appendCause_eq_none_iff F s).2 ⟨by simp [hflag], fun h => h.2 hF.start, fun h => h.2.2 ?_, not_lt.2 (by omega)⟩
  rw [hlen]
  exact hF.status

/-- It completes there, whatever length byte the engine knew before: the chunk carries its own (R61, R63). -/
theorem Reassemblable.appendOutcome_accept {F : List Byte} {N : Byte} (hF : Reassemblable F N) {s : State}
    (hlen : s.len = 0) : (s.accept F).appendOutcome = .frameComplete := by
  have hlength := hF.length
  obtain ⟨hlen', -⟩ := accept_fields s F
  have hN : (s.accept F).expectedLength = some N := by
    rw [accept_expectedLength_of_reached (by omega) (by omega), hlen]
    exact hF.lengthByte
  rw [appendOutcome_of_known hN, if_pos (by omega)]

/-- Settles O31: a matching checksum leads to the dispatch, where the command has no routine; `APPEND` has other causes, and its
tests do not look at the command byte. -/
theorem unknownCommandComesFromDecodeAlone : Obligations.UnknownCommandComesFromDecodeAlone := by
  refine ⟨fun s F hr hF hw hsum (hpack : byteAt F 1 ≠ cmdPack) (hcells : byteAt F 1 ≠ cmdCells) => ?decode,
    fun chunk s t h => ?append, fun F s hw hstart hstatus hroom hlen hflag => ?anyCommand⟩
  case decode =>
    refine (execDecode_answers_decodeFrame hr hF hw).trans ?_
    rw [decodeResult_decodeFrame, if_neg (not_not.2 hsum), if_neg hpack, if_neg hcells]
    rfl
  case append =>
    obtain hres | hres | ⟨c, hc, hres⟩ := execAppend_result h
    · simp [hres]
    · simp [hres]
    · have hother : c ≠ .unknownCommand := by
        rintro rfl
        simp at hc
      simp [hres, hother]
  case anyCommand =>
    have hF := reassemblable_of_wholeFrame hw hstart hstatus
    have hne : F ≠ [] := List.length_pos_iff.1 (by have := hF.length; omega)
    exact ⟨_, execAppend_of_no_cause hne (hF.appendCause_eq_none hflag hlen hroom),
      congrArg Result.append (hF.appendOutcome_accept hlen)⟩

end Sys2Proof.Machine

/-! `RESET` as power-on, the frame that cannot fit, and the poll cycle from any state (spec 70_reset_and_hazards.md). -/

namespace Sys2Proof.Machine

/-- What `RESET` clears is at its power-on value, and what it keeps is the capacity and the port (R126, D17). -/
theorem clear_eq_powerOn (s : State) : s.clear = { State.reset with cap := s.cap, port := s.port } := rfl

/-- Settles O2. -/
theorem resetGivesThePowerOnState : Obligations.ResetGivesThePowerOnState :=
  fun s => congrArg Host.Outcome.next (clear_eq_powerOn s)

/-- The completion test is the only source of `FrameComplete` (R63). -/
theorem appendOutcome_eq_frameComplete_iff (s : State) : s.appendOutcome = .frameComplete ↔ s.complete = true :=
  ⟨fun h => by_contra fun hnot => by simp [appendOutcome_of_not_complete hnot] at h, appendOutcome_of_complete⟩

/-- Only an accepted chunk completes a frame, which the capacity had room for (R60, R63). -/
theorem complete_and_fits_of_frameComplete {chunk : List Byte} {s t : State} (h : exec (.append chunk) s = .next t)
    (hres : t.result = .append .frameComplete) : t.complete = true ∧ t.len ≤ s.cap := by
  cases effect_of_exec h with
  | appendError _ hc => simp [result_of_appendCause hc] at hres
  | appendAccepted _ hc =>
    obtain ⟨-, -, -, hroom⟩ := (appendCause_none_iff chunk s).1 hc
    obtain ⟨hlen, -⟩ := accept_fields s chunk
    have houtcome : (s.accept chunk).appendOutcome = .frameComplete := by simpa using hres
    exact ⟨(appendOutcome_eq_frameComplete_iff _).1 houtcome, hlen.trans_le hroom⟩

/-- Settles O11: a completed frame is stored whole, within the capacity. -/
theorem frameThatCannotFitNeverCompletes : Obligations.FrameThatCannotFitNeverCompletes := by
  intro chunk s t n h hn hlarge hres
  obtain ⟨hcomplete, hfits⟩ := complete_and_fits_of_frameComplete h hres
  obtain ⟨m, hm, hlen⟩ := (complete_iff t).1 hcomplete
  obtain rfl : m = n := Option.some.inj (hm.symm.trans hn)
  omega

/-- An issued operation or request with an encoding is run by the next step (R33, R49). -/
theorem step_issued {i : Instr} {s : State} {rest : List Code} (hi : i.wf = true) (hop : ∀ F, encode i ≠ .frame F)
    (hp : s.port = encode i :: rest) : step s = exec i { s with port := rest } :=
  step_of_port hp (decodePort_of_decode hop (decodeOfEncodeIsTheInstruction i hi))

/-- A run that goes on made a first step that goes on. -/
theorem run_succ_next {k : Nat} {s t : State} (h : Host.Core.run core (k + 1) s = .next t) :
    ∃ u, step s = .next u ∧ Host.Core.run core k u = .next t := by
  have hrun := Host.Core.run.eq_2 core s k
  cases hstep : step s with
  | next u => exact ⟨u, rfl, (run_next hstep).symm.trans h⟩
  | fault r | refused r =>
    rw [show core.step s = _ from hstep, h] at hrun
    cases hrun

/-- Runs compose. -/
theorem run_add {m : Nat} {s t : State} (h : Host.Core.run core m s = .next t) (n : Nat) :
    Host.Core.run core (m + n) s = Host.Core.run core n t := by
  induction m generalizing s with
  | zero =>
    cases h
    rw [Nat.zero_add]
  | succ m ih =>
    obtain ⟨u, hstep, hrun⟩ := run_succ_next h
    rw [Nat.add_right_comm, run_next hstep, ih hrun]

/-- A cleared engine holds no byte (R55). -/
theorem holds_clear (s : State) : Holds s.clear [] :=
  ⟨rfl, fun _ => rfl, rfl, rfl⟩

/-- `RESET` and a request leave an engine that holds no byte, whatever it held before (R55, R127). -/
theorem run_reset_request {s : State} {request : Instr} {rest : List Code}
    (hreq : request = .reqPackSummary ∨ request = .reqCellVoltages)
    (hp : s.port = encode .reset :: encode request :: rest) (k : Nat) :
    Host.Core.run core (k + 2) s = Host.Core.run core k { s.clear with port := rest } := by
  have hreset : step s = .next { s.clear with port := encode request :: rest } :=
    step_issued (i := .reset) rfl (by simp [encode]) hp
  have hrequest : step { s.clear with port := encode request :: rest } = .next { s.clear with port := rest } := by
    obtain rfl | rfl := hreq
    · exact step_issued (i := .reqPackSummary) rfl (by simp [encode]) rfl
    · exact step_issued (i := .reqCellVoltages) rfl (by simp [encode]) rfl
  exact (run_next hreset).trans (run_next hrequest)

/-- A reassemblable frame is one for which `decode_frame` is defined (R38, R76). -/
theorem Reassemblable.wholeFrame {F : List Byte} {N : Byte} (hF : Reassemblable F N) : wholeFrame F = true := by
  have hN : payloadLength F = N.toNat := by
    simp [payloadLength, byteAt, List.getD_eq_getElem?_getD, hF.lengthByte]
  have hlength := hF.length
  exact (wholeFrame_iff F).2 ⟨by omega, by omega⟩

/-- An engine that holds a reassemblable frame is ready for `DECODE` (R16). -/
theorem Holds.frameReady {s : State} {F : List Byte} {N : Byte} (h : Holds s F) (hF : Reassemblable F N) :
    s.frameReady = true :=
  (frameReady_iff s).2 ⟨h.unlatched, (Machine.complete_iff s).1 ((h.complete_iff hF (List.append_nil F)).2 rfl)⟩

/-- `DECODE` on the port of an engine that holds a frame answers `decode_frame` of that frame (R76, R77). -/
theorem Holds.step_decode {s : State} {F : List Byte} {N : Byte} {rest : List Code} (h : Holds s F)
    (hF : Reassemblable F N) (hroom : F.length ≤ s.cap) (hp : s.port = encode .decode :: rest) :
    step s = .next (({ s with port := rest } : State).answer (.decode (decodeResult (decodeFrame F)))) :=
  have h' := h.withPort rest
  (step_issued (i := .decode) rfl (by simp [encode]) hp).trans
    (execDecode_answers_decodeFrame (h'.frameReady hF) (h'.frame hroom) hF.wholeFrame)

/-- Settles O48: behind `RESET` nothing of the old state is left, the chunks deliver the frame's bytes, and `DECODE` answers for
the bytes held. -/
theorem pollCycleDecodesTheFrameDelivered : Obligations.PollCycleDecodesTheFrameDelivered := by
  intro F chunks s N request rest hreq hstart hstatus hbyte hlength hroom hflat hne hp
  have hF : Reassemblable F N := ⟨hstart, hstatus, hbyte, hlength⟩
  obtain ⟨u, hrun, hu, hcap, hport, -⟩ := ((holds_clear s).withPort _).run_appends
    (rest := encode .decode :: rest) hF hne le_rfl hflat hroom rfl
  rw [List.take_length, List.nil_append, hflat] at hu
  rw [List.drop_length, List.map_nil, List.nil_append] at hport
  have hroom' : F.length ≤ u.cap := hcap.symm ▸ hroom
  have hdecode := hu.step_decode hF hroom' hport
  have hheld := (hu.withPort rest).answer (.decode (decodeResult (decodeFrame F)))
  refine ⟨_, ?run, rfl, hheld.frame hroom', hheld.len, hheld.expected.trans hbyte, hheld.unlatched, hcap, rfl⟩
  calc Host.Core.run core (chunks.length + 3) s
      = Host.Core.run core (chunks.length + 1) _ := run_reset_request hreq hp (chunks.length + 1)
    _ = Host.Core.run core 1 u := run_add hrun 1
    _ = Host.Core.run core 0 _ := run_next hdecode

end Sys2Proof.Machine
